-- ==== Sys2Proof/Word.lean ====
section
/-!
DEFINITION. The words of the machine: the unsigned bit vectors the spec computes in
(spec/00_scope.md R9, R10) and the index of a general register.
-/

namespace Sys2Proof

/-- A byte of memory, a general register or a timer (R15, R29, R41). -/
abbrev Byte := BitVec 8

/-- A 16-bit word: an instruction word, pc, I or a return address (R20, R22, R25, R60). -/
abbrev Word := BitVec 16

/-- A 4-bit field of an instruction word (R61). -/
abbrev Nibble := BitVec 4

/-- The 12-bit field `nnn` of an instruction word (R61). -/
abbrev Imm12 := BitVec 12

/-- The index of one of the 16 general registers V0..VF (R15). -/
abbrev RegIx := Fin 16

/-- `zext_16` of a 12-bit address (R9, R64). -/
def zext12 (a : Imm12) : Word := a.setWidth 16

/-- `zext_16` of a byte (R9, R64). -/
def zext8 (b : Byte) : Word := b.setWidth 16

end Sys2Proof
end

