-- ==== Sys2Proof/Syntax.lean ====
section
/-!
DEFINITION. The instruction set: one constructor per row of spec/opcode_table.json
(spec/30_encoding.md R65 to R70). `x` and `y` are register indices, `kk` a byte, `nnn` a 12-bit
address and `n` the row count of a sprite (R61, R64).
-/

namespace Sys2Proof

/-- The 34 instructions of base CHIP-8 (R2). The other words are undefined encodings (R72): they are
no instruction, the decoder rejects them, and the step runs them as no-ops (R81). -/
inductive Instr where
  | cls                                 -- 00E0  CLS            R117
  | ret                                 -- 00EE  RET            R84
  | jp      (nnn : Imm12)               -- 1nnn  JP nnn         R85
  | call    (nnn : Imm12)               -- 2nnn  CALL nnn       R86
  | seImm   (x : RegIx) (kk : Byte)     -- 3xkk  SE Vx, kk      R87
  | sneImm  (x : RegIx) (kk : Byte)     -- 4xkk  SNE Vx, kk     R88
  | seReg   (x y : RegIx)               -- 5xy0  SE Vx, Vy      R89
  | ldImm   (x : RegIx) (kk : Byte)     -- 6xkk  LD Vx, kk      R94
  | addImm  (x : RegIx) (kk : Byte)     -- 7xkk  ADD Vx, kk     R95
  | ldReg   (x y : RegIx)               -- 8xy0  LD Vx, Vy      R96
  | orReg   (x y : RegIx)               -- 8xy1  OR Vx, Vy      R97
  | andReg  (x y : RegIx)               -- 8xy2  AND Vx, Vy     R98
  | xorReg  (x y : RegIx)               -- 8xy3  XOR Vx, Vy     R99
  | addReg  (x y : RegIx)               -- 8xy4  ADD Vx, Vy     R100
  | sub     (x y : RegIx)               -- 8xy5  SUB Vx, Vy     R101
  | shr     (x y : RegIx)               -- 8xy6  SHR Vx         R102 (y is in the word and ignored)
  | subn    (x y : RegIx)               -- 8xy7  SUBN Vx, Vy    R103
  | shl     (x y : RegIx)               -- 8xyE  SHL Vx         R104 (y is in the word and ignored)
  | sneReg  (x y : RegIx)               -- 9xy0  SNE Vx, Vy     R90
  | ldI     (nnn : Imm12)               -- Annn  LD I, nnn      R107
  | jpV0    (nnn : Imm12)               -- Bnnn  JP V0, nnn     R91
  | rnd     (x : RegIx) (kk : Byte)     -- Cxkk  RND Vx, kk     R105
  | drw     (x y : RegIx) (n : Nat)     -- Dxyn  DRW Vx, Vy, n  R119 (n is 0..15, WellFormed)
  | skp     (x : RegIx)                 -- Ex9E  SKP Vx         R121
  | sknp    (x : RegIx)                 -- ExA1  SKNP Vx        R122
  | ldVxDt  (x : RegIx)                 -- Fx07  LD Vx, DT      R114
  | ldVxK   (x : RegIx)                 -- Fx0A  LD Vx, K       R123
  | ldDtVx  (x : RegIx)                 -- Fx15  LD DT, Vx      R115
  | ldStVx  (x : RegIx)                 -- Fx18  LD ST, Vx      R116
  | addI    (x : RegIx)                 -- Fx1E  ADD I, Vx      R108
  | ldF     (x : RegIx)                 -- Fx29  LD F, Vx       R109
  | ldB     (x : RegIx)                 -- Fx33  LD B, Vx       R110
  | ldMemVx (x : RegIx)                 -- Fx55  LD [I], Vx     R111
  | ldVxMem (x : RegIx)                 -- Fx65  LD Vx, [I]     R112
deriving DecidableEq, Repr

end Sys2Proof
end

