-- ==== Sys2Proof/Decode.lean ====
section
/-!
DEFINITION. The decoder and the encoder, written from spec/30_encoding.md (fields R61, formats R63,
opcode map R65 to R70, undefined encodings R72). Every digit of a pattern is matched exactly
(decision D19).
-/

namespace Sys2Proof

/-- `w[15:12]`, the instruction family (R61). -/
def fieldFamily (w : Word) : Nibble := w.extractLsb' 12 4

/-- `w[11:8]` as a register index (R61). -/
def fieldX (w : Word) : RegIx := (w.extractLsb' 8 4).toFin

/-- `w[7:4]` as a register index (R61). -/
def fieldY (w : Word) : RegIx := (w.extractLsb' 4 4).toFin

/-- `w[3:0]`, the nibble immediate or sub-opcode (R61). -/
def fieldN (w : Word) : Nibble := w.extractLsb' 0 4

/-- `w[7:0]`, the byte immediate or sub-opcode (R61). -/
def fieldKk (w : Word) : Byte := w.extractLsb' 0 8

/-- `w[11:0]`, the 12-bit address (R61). -/
def fieldNnn (w : Word) : Imm12 := w.extractLsb' 0 12

/-- Family 0x0: two fixed words (R65). -/
def decodeFamily0 (w : Word) : Option Instr :=
  if w = 0x00E0#16 then some .cls
  else if w = 0x00EE#16 then some .ret
  else none

/-- Family 0x8 selects by `n` (R67). -/
def decodeFamily8 (w : Word) : Option Instr :=
  match (fieldN w).toNat with
  | 0x0 => some (.ldReg (fieldX w) (fieldY w))
  | 0x1 => some (.orReg (fieldX w) (fieldY w))
  | 0x2 => some (.andReg (fieldX w) (fieldY w))
  | 0x3 => some (.xorReg (fieldX w) (fieldY w))
  | 0x4 => some (.addReg (fieldX w) (fieldY w))
  | 0x5 => some (.sub (fieldX w) (fieldY w))
  | 0x6 => some (.shr (fieldX w) (fieldY w))
  | 0x7 => some (.subn (fieldX w) (fieldY w))
  | 0xE => some (.shl (fieldX w) (fieldY w))
  | _ => none

/-- Family 0xE selects by `kk` (R69). -/
def decodeFamilyE (w : Word) : Option Instr :=
  if fieldKk w = 0x9E#8 then some (.skp (fieldX w))
  else if fieldKk w = 0xA1#8 then some (.sknp (fieldX w))
  else none

/-- Family 0xF selects by `kk` (R70). -/
def decodeFamilyF (w : Word) : Option Instr :=
  if fieldKk w = 0x07#8 then some (.ldVxDt (fieldX w))
  else if fieldKk w = 0x0A#8 then some (.ldVxK (fieldX w))
  else if fieldKk w = 0x15#8 then some (.ldDtVx (fieldX w))
  else if fieldKk w = 0x18#8 then some (.ldStVx (fieldX w))
  else if fieldKk w = 0x1E#8 then some (.addI (fieldX w))
  else if fieldKk w = 0x29#8 then some (.ldF (fieldX w))
  else if fieldKk w = 0x33#8 then some (.ldB (fieldX w))
  else if fieldKk w = 0x55#8 then some (.ldMemVx (fieldX w))
  else if fieldKk w = 0x65#8 then some (.ldVxMem (fieldX w))
  else none

/-- The instruction a word stands for, or none where the word is undefined (R62, R65 to R70, R72). -/
def decodeWord (w : Word) : Option Instr :=
  match (fieldFamily w).toNat with
  | 0x0 => decodeFamily0 w
  | 0x1 => some (.jp (fieldNnn w))
  | 0x2 => some (.call (fieldNnn w))
  | 0x3 => some (.seImm (fieldX w) (fieldKk w))
  | 0x4 => some (.sneImm (fieldX w) (fieldKk w))
  | 0x5 => if fieldN w = 0#4 then some (.seReg (fieldX w) (fieldY w)) else none
  | 0x6 => some (.ldImm (fieldX w) (fieldKk w))
  | 0x7 => some (.addImm (fieldX w) (fieldKk w))
  | 0x8 => decodeFamily8 w
  | 0x9 => if fieldN w = 0#4 then some (.sneReg (fieldX w) (fieldY w)) else none
  | 0xA => some (.ldI (fieldNnn w))
  | 0xB => some (.jpV0 (fieldNnn w))
  | 0xC => some (.rnd (fieldX w) (fieldKk w))
  | 0xD => some (.drw (fieldX w) (fieldY w) (fieldN w).toNat)
  | 0xE => decodeFamilyE w
  | 0xF => decodeFamilyF w
  | _ => none

/-- Why bytes give no instruction. Neither is an error of the machine (R62, R72). -/
inductive DecodeError where
  | undefinedWord (w : Word)  -- the word matches none of the 34 patterns (R72); the step runs it as R81
  | tooFewBytes               -- fewer than the two bytes of an instruction (R60)
deriving DecidableEq, Repr

/-- The big-endian word of two bytes, the first the high one (R49). -/
def wordOfBytes (hi lo : Byte) : Word := hi.setWidth 16 <<< 8 ||| lo.setWidth 16

/-- The high byte of a word, the one at the lower address (R49). -/
def highByte (w : Word) : Byte := w.extractLsb' 8 8

/-- The low byte of a word (R49). -/
def lowByte (w : Word) : Byte := w.extractLsb' 0 8

/-- Total decoding of any bytes: one instruction and the bytes after it, or a rejection by name. -/
def decode : List Byte → Except DecodeError (Instr × List Byte)
  | hi :: lo :: rest =>
    match decodeWord (wordOfBytes hi lo) with
    | some i => .ok (i, rest)
    | none => .error (.undefinedWord (wordOfBytes hi lo))
  | _ => .error .tooFewBytes

/-- What the decoder reads from the opcode table's word `w` of `nbits` bits, laid out big-endian. -/
def decodeTableWord (nbits w : Nat) : Option Instr :=
  match decode [highByte (BitVec.ofNat 16 (w % 2 ^ nbits)), lowByte (BitVec.ofNat 16 (w % 2 ^ nbits))] with
  | .ok (i, _) => some i
  | .error _ => none

/-! The encoder, from the six formats of R63 and the patterns of R65 to R70. -/

/-- The four bits of a register field (R61). -/
def regBits (x : RegIx) : Nibble := BitVec.ofFin x

/-- Format `NNN`: `oooo nnnn nnnn nnnn` (R63). -/
def formatNnn (o : Nibble) (nnn : Imm12) : Word := o.setWidth 16 <<< 12 ||| nnn.setWidth 16

/-- Formats `XKK` and `X`: `oooo xxxx kkkk kkkk` (R63). -/
def formatXkk (o : Nibble) (x : RegIx) (kk : Byte) : Word :=
  o.setWidth 16 <<< 12 ||| (regBits x).setWidth 16 <<< 8 ||| kk.setWidth 16

/-- Formats `XY` and `XYN`: `oooo xxxx yyyy ssss` (R63). -/
def formatXyn (o : Nibble) (x y : RegIx) (n : Nibble) : Word :=
  o.setWidth 16 <<< 12 ||| (regBits x).setWidth 16 <<< 8 ||| (regBits y).setWidth 16 <<< 4 ||| n.setWidth 16

/-- The word of a well-formed instruction (R63, R65 to R70). -/
def encodeWord : Instr → Word
  | .cls => 0x00E0#16
  | .ret => 0x00EE#16
  | .jp nnn => formatNnn 0x1#4 nnn
  | .call nnn => formatNnn 0x2#4 nnn
  | .seImm x kk => formatXkk 0x3#4 x kk
  | .sneImm x kk => formatXkk 0x4#4 x kk
  | .seReg x y => formatXyn 0x5#4 x y 0x0#4
  | .ldImm x kk => formatXkk 0x6#4 x kk
  | .addImm x kk => formatXkk 0x7#4 x kk
  | .ldReg x y => formatXyn 0x8#4 x y 0x0#4
  | .orReg x y => formatXyn 0x8#4 x y 0x1#4
  | .andReg x y => formatXyn 0x8#4 x y 0x2#4
  | .xorReg x y => formatXyn 0x8#4 x y 0x3#4
  | .addReg x y => formatXyn 0x8#4 x y 0x4#4
  | .sub x y => formatXyn 0x8#4 x y 0x5#4
  | .shr x y => formatXyn 0x8#4 x y 0x6#4
  | .subn x y => formatXyn 0x8#4 x y 0x7#4
  | .shl x y => formatXyn 0x8#4 x y 0xE#4
  | .sneReg x y => formatXyn 0x9#4 x y 0x0#4
  | .ldI nnn => formatNnn 0xA#4 nnn
  | .jpV0 nnn => formatNnn 0xB#4 nnn
  | .rnd x kk => formatXkk 0xC#4 x kk
  | .drw x y n => formatXyn 0xD#4 x y (BitVec.ofNat 4 n)
  | .skp x => formatXkk 0xE#4 x 0x9E#8
  | .sknp x => formatXkk 0xE#4 x 0xA1#8
  | .ldVxDt x => formatXkk 0xF#4 x 0x07#8
  | .ldVxK x => formatXkk 0xF#4 x 0x0A#8
  | .ldDtVx x => formatXkk 0xF#4 x 0x15#8
  | .ldStVx x => formatXkk 0xF#4 x 0x18#8
  | .addI x => formatXkk 0xF#4 x 0x1E#8
  | .ldF x => formatXkk 0xF#4 x 0x29#8
  | .ldB x => formatXkk 0xF#4 x 0x33#8
  | .ldMemVx x => formatXkk 0xF#4 x 0x55#8
  | .ldVxMem x => formatXkk 0xF#4 x 0x65#8

/-- The bytes of a well-formed instruction, in memory order (R49, R60). -/
def encode (i : Instr) : List Byte := [highByte (encodeWord i), lowByte (encodeWord i)]

/-! The opcode table as data, for the claims that compare the decoder with it. -/

/-- One row: a word belongs to it when `w &&& mask = pattern` (spec/opcode_table.json, R63). -/
structure OpcodeRow where
  mask    : Word
  pattern : Word
deriving DecidableEq, Repr

/-- Does the word match the row on every fixed bit? -/
def OpcodeRow.matches (r : OpcodeRow) (w : Word) : Bool := w &&& r.mask = r.pattern

/-- The mask and match of each instruction's row, as spec/opcode_table.json gives them. -/
def rowOf : Instr → OpcodeRow
  | .cls => ⟨0xFFFF, 0x00E0⟩
  | .ret => ⟨0xFFFF, 0x00EE⟩
  | .jp _ => ⟨0xF000, 0x1000⟩
  | .call _ => ⟨0xF000, 0x2000⟩
  | .seImm _ _ => ⟨0xF000, 0x3000⟩
  | .sneImm _ _ => ⟨0xF000, 0x4000⟩
  | .seReg _ _ => ⟨0xF00F, 0x5000⟩
  | .ldImm _ _ => ⟨0xF000, 0x6000⟩
  | .addImm _ _ => ⟨0xF000, 0x7000⟩
  | .ldReg _ _ => ⟨0xF00F, 0x8000⟩
  | .orReg _ _ => ⟨0xF00F, 0x8001⟩
  | .andReg _ _ => ⟨0xF00F, 0x8002⟩
  | .xorReg _ _ => ⟨0xF00F, 0x8003⟩
  | .addReg _ _ => ⟨0xF00F, 0x8004⟩
  | .sub _ _ => ⟨0xF00F, 0x8005⟩
  | .shr _ _ => ⟨0xF00F, 0x8006⟩
  | .subn _ _ => ⟨0xF00F, 0x8007⟩
  | .shl _ _ => ⟨0xF00F, 0x800E⟩
  | .sneReg _ _ => ⟨0xF00F, 0x9000⟩
  | .ldI _ => ⟨0xF000, 0xA000⟩
  | .jpV0 _ => ⟨0xF000, 0xB000⟩
  | .rnd _ _ => ⟨0xF000, 0xC000⟩
  | .drw _ _ _ => ⟨0xF000, 0xD000⟩
  | .skp _ => ⟨0xF0FF, 0xE09E⟩
  | .sknp _ => ⟨0xF0FF, 0xE0A1⟩
  | .ldVxDt _ => ⟨0xF0FF, 0xF007⟩
  | .ldVxK _ => ⟨0xF0FF, 0xF00A⟩
  | .ldDtVx _ => ⟨0xF0FF, 0xF015⟩
  | .ldStVx _ => ⟨0xF0FF, 0xF018⟩
  | .addI _ => ⟨0xF0FF, 0xF01E⟩
  | .ldF _ => ⟨0xF0FF, 0xF029⟩
  | .ldB _ => ⟨0xF0FF, 0xF033⟩
  | .ldMemVx _ => ⟨0xF0FF, 0xF055⟩
  | .ldVxMem _ => ⟨0xF0FF, 0xF065⟩

/-- The 34 rows of spec/opcode_table.json in its order. -/
def opcodeRows : List OpcodeRow :=
  [rowOf .cls, rowOf .ret, rowOf (.jp 0), rowOf (.call 0), rowOf (.seImm 0 0), rowOf (.sneImm 0 0),
   rowOf (.seReg 0 0), rowOf (.ldImm 0 0), rowOf (.addImm 0 0), rowOf (.ldReg 0 0), rowOf (.orReg 0 0),
   rowOf (.andReg 0 0)] ++
  [rowOf (.xorReg 0 0), rowOf (.addReg 0 0), rowOf (.sub 0 0), rowOf (.shr 0 0), rowOf (.subn 0 0),
   rowOf (.shl 0 0), rowOf (.sneReg 0 0), rowOf (.ldI 0), rowOf (.jpV0 0), rowOf (.rnd 0 0),
   rowOf (.drw 0 0 0)] ++
  [rowOf (.skp 0), rowOf (.sknp 0), rowOf (.ldVxDt 0), rowOf (.ldVxK 0), rowOf (.ldDtVx 0),
   rowOf (.ldStVx 0), rowOf (.addI 0), rowOf (.ldF 0), rowOf (.ldB 0), rowOf (.ldMemVx 0),
   rowOf (.ldVxMem 0)]

end Sys2Proof
end

