-- ==== Sys2Proof/Config.lean ====
section
/-!
DEFINITION. What is fixed for the machine: its sizes (spec/00_scope.md R7), the settings of its
named parameters (R8), and the free value behind `P_RAND`.
-/

namespace Sys2Proof.Config

/-- `MEM_SIZE`, bytes of memory (R7, R41). -/
abbrev memSize : Nat := 4096

/-- `PROG_BASE`, where a program image goes and where pc starts (R7, R24). -/
abbrev progBase : Nat := 0x200

/-- `ROM_MAX` = 4096 - 0x200, the largest image `load` accepts (R7, R136). -/
abbrev romMax : Nat := 3584

/-- `FONT_SIZE`, bytes of font set at addresses 0..79 (R7, R45). -/
abbrev fontSize : Nat := 80

/-- `STACK_DEPTH`, return-address slots, and the largest sp (R7, R25). -/
abbrev stackDepth : Nat := 16

/-- `DISPLAY_W`, display columns (R7, R31). -/
abbrev displayW : Nat := 64

/-- `DISPLAY_H`, display rows (R7, R31). -/
abbrev displayH : Nat := 32

/-- `NUM_KEYS`, key latches (R7, R33). -/
abbrev numKeys : Nat := 16

/-- `FLAG_REG`, the index of VF (R7, R18). -/
abbrev flagReg : RegIx := 15

/-- `P_FONT`: the 80 bytes of the font set (R8, R45, R46). -/
abbrev Font := Vector Byte fontSize

/-- `P_VF_ALIAS` (R8, R93): what 8xy5, 8xy6, 8xy7 and 8xyE read after they have written VF. -/
inductive VfAlias where
  | snapshotTableOrder  -- operands are the values at the start of the instruction
  | sequential          -- the second assignment reads the registers as they then stand
deriving DecidableEq, Repr

/-- `P_FONT_WRITE` (R8, R47): what a data write to an address in 0..79 does. -/
inductive FontWrite where
  | write   -- the byte is written like any other
  | ignore  -- the write is dropped
  | fault   -- the instruction raises AddressOutOfRange at that address
deriving DecidableEq, Repr

/-- `P_KEY_INDEX` (R8, R120): what Ex9E and ExA1 do when Vx is 16 or more. -/
inductive KeyIndex where
  | fault       -- KeyIndexOutOfRange
  | lowNibble   -- the latch `key[Vx & 0xF]` is read
  | notPressed  -- the key counts as released
deriving DecidableEq, Repr

/-- The construction parameters a model takes as arguments (R8, R135), less `P_RAND`. -/
structure Params where
  font      : Font
  vfAlias   : VfAlias
  fontWrite : FontWrite
  keyIndex  : KeyIndex
deriving DecidableEq, Repr

/-- FREE VALUE behind `P_RAND` (R38, R105): the byte of the n-th draw where the host injected none.
It has no body, so nothing can be proved of it. DESIGN CHOICE, notes/assumptions/4.md. -/
opaque freeDraw : Nat → Byte

end Sys2Proof.Config
end

