-- ==== Sys2Proof/Machine/Flags.lean ====
section
/-!
DEFINITION. Every flag computation of the machine (spec/10_state.md R18, spec/42_register_alu.md R92).
-/

namespace Sys2Proof.Machine

/-- `bool2bit(c)` (R11). -/
def bool2bit (c : Bool) : Byte := if c then 1 else 0

/-- 8xy4: 1 if Vx + Vy > 255, the exact sum (R92, R100). -/
def carryFlag (p q : Byte) : Bool := p.toNat + q.toNat > 255

/-- 8xy5 with p = Vx, q = Vy and 8xy7 with p = Vy, q = Vx: 1 if p > q (R92, R101, R103). -/
def greaterFlag (p q : Byte) : Bool := p.toNat > q.toNat

/-- 8xy6: bit 0 of Vx before the shift (R102). -/
def shiftedOutRight (p : Byte) : Bool := p.getLsbD 0

/-- 8xyE: bit 7 of Vx before the shift (R104). -/
def shiftedOutLeft (p : Byte) : Bool := p.getLsbD 7

end Sys2Proof.Machine
end

