-- ==== Sys2Proof/Machine/Defaults.lean ====
section
/-!
DEFINITION. The default settings of the construction parameters (spec/00_scope.md R8).
-/

namespace Sys2Proof.Machine

/-- The default of `P_FONT`, the table of R46. PRESUMED: the spec marks these bytes "from general
knowledge, not in source" (D8, G1); notes/assumptions/3.md. -/
def defaultFont : Config.Font :=
  #v[0xF0, 0x90, 0x90, 0x90, 0xF0,  -- 0
     0x20, 0x60, 0x20, 0x20, 0x70,  -- 1
     0xF0, 0x10, 0xF0, 0x80, 0xF0,  -- 2
     0xF0, 0x10, 0xF0, 0x10, 0xF0,  -- 3
     0x90, 0x90, 0xF0, 0x10, 0x10,  -- 4
     0xF0, 0x80, 0xF0, 0x10, 0xF0,  -- 5
     0xF0, 0x80, 0xF0, 0x90, 0xF0,  -- 6
     0xF0, 0x10, 0x20, 0x40, 0x40,  -- 7
     0xF0, 0x90, 0xF0, 0x90, 0xF0,  -- 8
     0xF0, 0x90, 0xF0, 0x10, 0xF0,  -- 9
     0xF0, 0x90, 0xF0, 0x90, 0x90,  -- A
     0xE0, 0x90, 0xE0, 0x90, 0xE0,  -- B
     0xF0, 0x80, 0x80, 0x80, 0xF0,  -- C
     0xE0, 0x90, 0x90, 0x90, 0xE0,  -- D
     0xF0, 0x80, 0xF0, 0x80, 0xF0,  -- E
     0xF0, 0x80, 0xF0, 0x80, 0x80]  -- F

/-- The defaults of R8's table. DESIGN CHOICE of the spec (D4, D7, D9) and PRESUMED for the font (D8);
notes/assumptions/2.md, 3.md, 5.md, 6.md, 7.md. -/
def defaultParams : Config.Params where
  font := defaultFont
  vfAlias := .snapshotTableOrder
  fontWrite := .write
  keyIndex := .fault

end Sys2Proof.Machine
end

