-- ==== Sys2Proof/Machine/State.lean ====
section
/-!
DEFINITION. The state of the machine: the record of spec/10_state.md R14, the construction parameters
of spec/00_scope.md R8, and the two fields that carry `P_RAND` (R38). Plain data throughout.
-/

namespace Sys2Proof.Machine

/-- The faults of R124. A step that raises one of them is a NEXT state in which the fault status
holds it (R37, R80, R126); a step of a machine whose fault status holds one ends in `Outcome.fault`
with that same fault, because the block is halted and no state changes (R127). Safe: nothing runs
past a fault. notes/assumptions/1.md. -/
inductive Fault where
  /-- Raised by 2nnn at address `a` when sp = 16 (R86). Safe. -/
  | stackOverflow (a : Word)
  /-- Raised by 00EE at address `a` when sp = 0 (R84). Safe. -/
  | stackUnderflow (a : Word)
  /-- Raised by the fetch, Dxyn, Fx33, Fx55 and Fx65 for an address of 4096 or above, and under
  `P_FONT_WRITE = fault` by Fx33 and Fx55 for an address below 80; records the lowest offending
  address (R47, R53, R76). Safe. -/
  | addressOutOfRange (addr : Nat)
  /-- Raised by Ex9E and ExA1 at address `a` when Vx > 15 and `P_KEY_INDEX = fault` (R120). Safe. -/
  | keyIndexOutOfRange (a : Word) (vx : Byte)
deriving DecidableEq, Repr

/-- Why a step has no meaning. No meaning of this model raises one: every arm of `exec` is modelled. -/
inductive Refusal where
  /-- Raised by an arm of `exec` that has no meaning yet; there is none. Safe. -/
  | notModelled (mnemonic : String)
deriving DecidableEq, Repr

/-- Memory as the bytes that differ from what an unlisted address reads as, by rising address
(`Memory.wf`, `Memory.unlisted`). -/
abbrev Memory := List Host.Cell

/-- 32 rows of 64 one-bit cells (R31): bit `c` of row `r` is `disp[r][c]`. -/
abbrev Display := Vector (BitVec 64) Config.displayH

/-- The state record (R14). -/
structure State where
  /-- 4096 bytes (R41). -/
  mem : Memory
  /-- V0..VF (R15); VF is index 15 (R18). -/
  v : Vector Byte 16
  /-- The index register I (R20). -/
  i : Word
  /-- The address of the instruction the next step fetches (R22). -/
  pc : Word
  /-- 16 return-address slots (R25). -/
  stack : Vector Word Config.stackDepth
  /-- The number of occupied slots, 0..16 (R25, R26). -/
  sp : Nat
  /-- The delay timer DT (R29). -/
  dt : Byte
  /-- The sound timer ST (R29). -/
  st : Byte
  /-- The display buffer (R31). -/
  disp : Display
  /-- The key latches, true when pressed (R33). -/
  key : Vector Bool Config.numKeys
  /-- The fault status (R37). -/
  fault : Option Fault
  /-- The opcode register (R36). -/
  opcode : Word
  /-- The construction parameters (R8); no step changes them. -/
  params : Config.Params
  /-- The model's own: the draws of `P_RAND` the host injected, the next one first (R38, D11). -/
  draws : List Byte
  /-- The model's own: how many draws have been taken, the argument of the free value. -/
  drawsTaken : Nat
deriving DecidableEq, Repr

/-- The state after construction with parameters `p` and injected draws `ds` (R40, R48, R146): memory
lists nothing, so it reads as the font set and zeros. -/
def State.resetWith (p : Config.Params) (ds : List Byte) : State where
  mem := []
  v := Vector.replicate 16 0
  i := 0
  pc := BitVec.ofNat 16 Config.progBase
  stack := Vector.replicate Config.stackDepth 0
  sp := 0
  dt := 0
  st := 0
  disp := Vector.replicate Config.displayH 0
  key := Vector.replicate Config.numKeys false
  fault := none
  opcode := 0
  params := p
  draws := ds
  drawsTaken := 0

/-- The machine right after reset, with the default parameters (R8, R40, R146). -/
def State.reset : State := State.resetWith defaultParams []

end Sys2Proof.Machine
end

