-- ==== Sys2Proof/Machine/Memory.lean ====
section
/-!
DEFINITION. The 4096-byte memory (spec/20_memory.md): what an unlisted address reads as, reading and
writing one byte, the canonical form, and the out-of-range check of R53.
-/

namespace Sys2Proof.Machine

/-- What an address that the list does not hold reads as: the reset contents of R48, the font set at
0..79 and 0 above. -/
def Memory.unlisted (font : Config.Font) (a : Nat) : Byte :=
  if h : a < Config.fontSize then font[a] else 0

/-- The byte the list holds at an address. -/
def Memory.lookup : Memory → Nat → Option Byte
  | [], _ => none
  | c :: m, a => if a = c.1 then some c.2 else Memory.lookup m a

/-- The byte at an address (R56): the last one written, or the reset value. -/
def Memory.read (font : Config.Font) (m : Memory) (a : Nat) : Byte :=
  (Memory.lookup m a).getD (Memory.unlisted font a)

/-- Drop an address from the list. -/
def Memory.erase (m : Memory) (a : Nat) : Memory := m.filter fun c => c.1 ≠ a

/-- List a byte at an address, keeping the addresses rising. -/
def Memory.put : Memory → Nat → Byte → Memory
  | [], a, b => [(a, b)]
  | c :: m, a, b =>
    if a < c.1 then (a, b) :: c :: m
    else if a = c.1 then (a, b) :: m
    else c :: Memory.put m a b

/-- Write one byte (R54: "a write changes only the byte written"), keeping the canonical form. -/
def Memory.write (font : Config.Font) (m : Memory) (a : Nat) (b : Byte) : Memory :=
  if b = Memory.unlisted font a then Memory.erase m a else Memory.put m a b

/-- The canonical form: addresses rising, each inside the memory of 4096 bytes (R41), and no entry
equal to what its address reads as unlisted. -/
def Memory.wf (font : Config.Font) (m : Memory) : Bool :=
  decide (m.Pairwise fun c d => c.1 < d.1) &&
    m.all fun c => c.1 < Config.memSize && c.2 ≠ Memory.unlisted font c.1

/-- `CheckRange(base, count)` (R11, R53): the lowest of base .. base+count-1 that is 4096 or above. -/
def checkRange (base count : Nat) : Option Nat :=
  if count = 0 ∨ base + count ≤ Config.memSize then none else some (max base Config.memSize)

/-- The check before a store of `count` bytes from `base`: R53's range check and, under
`P_FONT_WRITE = fault`, the lowest address below 80 (R47, R110, R111). -/
def checkStore (fw : Config.FontWrite) (base count : Nat) : Option Nat :=
  match checkRange base count with
  | some a => some a
  | none => if fw = .fault ∧ count ≠ 0 ∧ base < Config.fontSize then some base else none

/-- Is a byte stored at this address dropped (`P_FONT_WRITE = ignore`, R47)? -/
def storeDropped (fw : Config.FontWrite) (a : Nat) : Bool :=
  fw = .ignore && a < Config.fontSize

end Sys2Proof.Machine
end

