-- ==== Sys2Proof/Machine/Ops.lean ====
section
/-!
DEFINITION. The named operations the meanings share: registers, memory bytes, the call stack, the
display, the draw of a random byte, the four next-pc outcomes of spec/40_execution_cycle.md R78,
taking a fault (R80, R126) and the timer tick (R79).
-/

namespace Sys2Proof.Machine

/-- What a meaning answers. -/
abbrev Result := Host.Outcome State Fault Refusal

/-! General registers (R15). -/

/-- `V[x]`. -/
def State.readV (s : State) (x : RegIx) : Byte := s.v[x]

/-- `V[x] <- b`. -/
def State.writeV (s : State) (x : RegIx) (b : Byte) : State := { s with v := s.v.set x b }

/-- `VF <- bool2bit(c)` (R18). -/
def State.writeFlag (s : State) (c : Bool) : State := s.writeV Config.flagReg (bool2bit c)

/-- `I <- w` (R20). -/
def State.writeI (s : State) (w : Word) : State := { s with i := w }

/-! Memory bytes (R52, R53). The range is checked before these are used. -/

/-- `MemRead(a, 1)`. -/
def State.readByte (s : State) (a : Nat) : Byte := Memory.read s.params.font s.mem a

/-- Write a byte whatever `P_FONT_WRITE` says: what `load` does (R136). -/
def State.pokeByte (s : State) (a : Nat) (b : Byte) : State :=
  { s with mem := Memory.write s.params.font s.mem a b }

/-- `MemWrite(a, 1, b)` after its checks: dropped below 80 under `P_FONT_WRITE = ignore` (R47). -/
def State.storeByte (s : State) (a : Nat) (b : Byte) : State :=
  if storeDropped s.params.fontWrite a then s else s.pokeByte a b

/-- The bytes at base, base+1, ..., base+count-1 (R50). -/
def State.readBytes (s : State) (base count : Nat) : List Byte :=
  (List.range count).map fun k => s.readByte (base + k)

/-- `MemWrite` of each byte at rising addresses (R50). -/
def State.storeBytes (s : State) (base : Nat) : List Byte → State
  | [] => s
  | b :: bs => (s.storeByte base b).storeBytes (base + 1) bs

/-- The same with `pokeByte`: a program image from its base (R136). -/
def State.pokeBytes (s : State) (base : Nat) : List Byte → State
  | [] => s
  | b :: bs => (s.pokeByte base b).pokeBytes (base + 1) bs

/-! The call stack (R25, R27). -/

/-- `stack[j]`; a slot that does not exist reads 0, which no machine with sp ≤ 16 meets
(notes/assumptions/10.md). -/
def State.slot (s : State) (j : Nat) : Word :=
  if h : j < Config.stackDepth then s.stack[j] else 0

/-- `stack[sp] <- w; sp <- sp + 1` (R25, R86). -/
def State.push (s : State) (w : Word) : State :=
  { s with stack := s.stack.setIfInBounds s.sp w, sp := s.sp + 1 }

/-- `sp <- sp - 1`, leaving the slot as it is (R25, R27, R84). -/
def State.pop (s : State) : State := { s with sp := s.sp - 1 }

/-! Key latches (R33). -/

/-- `key[k]`; there is no latch above 15, and no meaning asks for one. -/
def State.pressed (s : State) (k : Nat) : Bool :=
  if h : k < Config.numKeys then s.key[k] else false

/-! The display buffer (R31, R118, R119). -/

/-- `disp[r][c]`, off outside the buffer. -/
def Display.cell (d : Display) (r c : Nat) : Bool :=
  if h : r < Config.displayH then d[r].getLsbD c else false

/-- Flip the cell in row `r` mod 32, column `c` mod 64 (R119). -/
def Display.toggle (d : Display) (r c : Nat) : Display :=
  d.set (r % Config.displayH) (d[r % Config.displayH]'(Nat.mod_lt _ (by decide)) ^^^ (1#64 <<< (c % Config.displayW)))
    (Nat.mod_lt _ (by decide))

/-- One set sprite bit at row `r`, column `c` before wrapping: the pair is the buffer and `collide`. -/
def drawPixel (r c : Nat) (st : Display × Bool) : Display × Bool :=
  (Display.toggle st.1 r c, st.2 || Display.cell st.1 (r % Config.displayH) (c % Config.displayW))

/-- One sprite byte: bit `7 - k` is the pixel at column offset `k` (R118), for `k` below `cols`. -/
def drawByteCols (b : Byte) (r c : Nat) : Nat → Display × Bool → Display × Bool
  | 0, st => st
  | k + 1, st =>
    let st' := drawByteCols b r c k st
    if b.getLsbD (7 - k) then drawPixel r (c + k) st' else st'

/-- The rows of a sprite, the first at row `r` (R119). -/
def drawRows (c : Nat) : List Byte → Nat → Display × Bool → Display × Bool
  | [], _, st => st
  | b :: bs, r, st => drawRows c bs (r + 1) (drawByteCols b r c 8 st)

/-! The draw of a random byte (R38, R105, D11, D21). -/

/-- The next draw of `P_RAND`: the next injected byte, else the free value. -/
def State.nextDraw (s : State) : Byte := s.draws.head?.getD (Config.freeDraw s.drawsTaken)

/-- The state once that draw is taken. -/
def State.takeDraw (s : State) : State :=
  { s with draws := s.draws.tail, drawsTaken := s.drawsTaken + 1 }

/-! How an instruction ends. -/

/-- The next-pc outcome of an instruction (R78). -/
inductive NextPc where
  | next             -- a + 2
  | skip             -- a + 4
  | jump (t : Word)  -- t, with no automatic advance
  | stay             -- a
deriving DecidableEq, Repr

/-- The next pc of an instruction at address `a` (R78). -/
def NextPc.target (a : Word) : NextPc → Word
  | .next => a + 2
  | .skip => a + 4
  | .jump t => t
  | .stay => a

/-- End an instruction with an outcome: its working state, with pc set from the outcome. No
instruction writes pc before this, so pc is still its own address `a` (R75, R78). -/
def finish (o : NextPc) (s : State) : Result := .next { s with pc := o.target s.pc }

/-- TAKING A FAULT (R37, R80, R126): the fault status is set and nothing of the instruction is
committed. `s` is the state the instruction started from: its pc is the faulting instruction's
address and its opcode register the fetched word. There is no handler, saved register, mode change
or stack push, and no return from a fault (R126, R128). -/
def raise (f : Fault) (s : State) : Result := .next { s with fault := some f }

/-- `raise AddressOutOfRange` at the address a check reports, else go on (R53). -/
def afterCheck (bad : Option Nat) (s : State) (go : Result) : Result :=
  match bad with
  | some a => raise (.addressOutOfRange a) s
  | none => go

/-! The timers (R29, R79). -/

/-- One tick of one timer: down by 1 above 0, and 0 stays 0. -/
def tickByte (b : Byte) : Byte := if b = 0 then 0 else b - 1

/-- The tick at the end of a step. -/
def State.tick (s : State) : State := { s with dt := tickByte s.dt, st := tickByte s.st }

end Sys2Proof.Machine
end

