-- ==== Sys2Proof/Machine/Cycle.lean ====
section
/-!
DEFINITION. The parts of one step around the instruction (spec/40_execution_cycle.md R75): the fetch,
the opcode register, the undefined word, and the end of the step; and placing a word where the step
fetches.
-/

namespace Sys2Proof.Machine

/-- The address the fetch finds out of range, if any: pc when pc > 4095, else 4096 when pc = 4095 (R76). -/
def fetchFault (s : State) : Option Nat :=
  if s.pc.toNat + 1 < Config.memSize then none
  else some (if Config.memSize ≤ s.pc.toNat then s.pc.toNat else s.pc.toNat + 1)

/-- The word at pc and pc+1, big-endian (R49, R76). -/
def fetchWord (s : State) : Word := wordOfBytes (s.readByte s.pc.toNat) (s.readByte (s.pc.toNat + 1))

/-- Every fetch that succeeds writes the opcode register, also when the instruction then faults (R36). -/
def latchOpcode (s : State) : State := { s with opcode := fetchWord s }

/-- An undefined word: reads nothing, writes nothing, raises nothing, outcome `Next` (R81). -/
def execUndefined (s : State) : Result := finish .next s

/-- The end of a step that started with no fault: one tick, unless the instruction raised a fault
(R79, R80). -/
def endStep : Result → Result
  | .next t => .next (if t.fault.isSome then t else t.tick)
  | .fault f => .fault f
  | .refused r => .refused r

/-- The state with a word stored where its next step fetches: at pc, after clearing a fault status
and moving a pc that no fetch can use to 0x200 (notes/assumptions/14.md). -/
def placeWord (s : State) (w : Word) : State :=
  let a := if s.pc.toNat + 1 < Config.memSize then s.pc else BitVec.ofNat 16 Config.progBase
  ({ s with fault := none, pc := a }).pokeBytes a.toNat [highByte w, lowByte w]

end Sys2Proof.Machine
end

