-- ==== Sys2Proof/Machine/Operands.lean ====
section
/-!
DEFINITION. What the operand forms and result computations of the instructions give
(spec/30_encoding.md R64, spec/42_register_alu.md R92, spec/43_index_memory.md R106 to R112,
spec/45_display_input.md R120).
-/

namespace Sys2Proof.Machine

/-- The address of the k-th byte an instruction moves is `I + k`, exact (R53, R106); this is its base. -/
def State.base (s : State) : Nat := s.i.toNat

/-- `trunc_8(p + q)` (R92, R95, R100). -/
def addByte (p q : Byte) : Byte := BitVec.ofNat 8 (p.toNat + q.toNat)

/-- `trunc_8(p - q)`, which is p - q + 256 when q > p (R92, R101, R103). -/
def subByte (p q : Byte) : Byte := BitVec.ofNat 8 (p.toNat + 256 - q.toNat)

/-- `Vx >> 1`, logical (R102). -/
def shiftRightOne (p : Byte) : Byte := p >>> 1

/-- `trunc_8(Vx << 1)` (R104). -/
def shiftLeftOne (p : Byte) : Byte := p <<< 1

/-- `trunc_16(I + zext_16(Vx))` (R108). -/
def addIndex (i : Word) (p : Byte) : Word := i + zext8 p

/-- `zext_16(Vx) * 5`, Vx not masked (R109). -/
def glyphBase (p : Byte) : Word := zext8 p * 5

/-- `zext_16(nnn) + zext_16(V[0])`, in 16 bits (R64, R91). -/
def indexedTarget (nnn : Imm12) (v0 : Byte) : Word := zext12 nnn + zext8 v0

/-- The decimal digits of a byte: hundreds, tens, ones (R110). -/
def bcdDigits (p : Byte) : List Byte :=
  [BitVec.ofNat 8 (p.toNat / 100), BitVec.ofNat 8 (p.toNat / 10 % 10), BitVec.ofNat 8 (p.toNat % 10)]

/-- V0..Vx in order (R111). -/
def State.regsUpTo (s : State) (x : RegIx) : List Byte := s.v.toList.take (x.val + 1)

/-- The registers after `V[i] <- MemRead(base + i, 1)` for i in 0..x (R112). -/
def State.loadRegs (s : State) (base : Nat) (x : RegIx) : State :=
  { s with v := Vector.ofFn fun (i : RegIx) => if i ≤ x then s.readByte (base + i.val) else s.readV i }

/-- 8xy5, 8xy6, 8xy7 and 8xyE write VF first and then V[x] (R93). `result` computes V[x] from the
registers: those at the start under `snapshot_table_order`, those with VF just written under
`sequential`. -/
def State.flagThenResult (s : State) (flag : Bool) (x : RegIx) (result : State → Byte) : State :=
  let withFlag := s.writeFlag flag
  match s.params.vfAlias with
  | .snapshotTableOrder => withFlag.writeV x (result s)
  | .sequential => withFlag.writeV x (result withFlag)

/-- What Ex9E and ExA1 find at the key number Vx (R120). -/
inductive KeyTest where
  | latch (pressed : Bool)  -- the level of the latch, or what P_KEY_INDEX makes of it
  | outOfRange              -- KeyIndexOutOfRange
deriving DecidableEq, Repr

/-- Test the key numbered `k`: its latch when k ≤ 15, else as `P_KEY_INDEX` says (R120). -/
def State.testKey (s : State) (k : Byte) : KeyTest :=
  if k.toNat < Config.numKeys then .latch (s.pressed k.toNat)
  else
    match s.params.keyIndex with
    | .fault => .outOfRange
    | .lowNibble => .latch (s.pressed (k.toNat % 16))
    | .notPressed => .latch false

/-- The lowest-indexed pressed key, if any key is pressed (R123). -/
def State.lowestKey (s : State) : Option Nat := (List.range Config.numKeys).find? fun k => s.pressed k

end Sys2Proof.Machine
end

