-- ==== Sys2Proof/Machine/Alu.lean ====
section
/-!
DEFINITION. Register loads and arithmetic (spec/42_register_alu.md): 6xkk, 7xkk, 8xy0 to 8xy7, 8xyE, Cxkk.
-/

namespace Sys2Proof.Machine

/-- 6xkk LD Vx, kk (R94). -/
def execLdImm (x : RegIx) (kk : Byte) (s : State) : Result := finish .next (s.writeV x kk)

/-- 7xkk ADD Vx, kk: no flag (R95). -/
def execAddImm (x : RegIx) (kk : Byte) (s : State) : Result :=
  finish .next (s.writeV x (addByte (s.readV x) kk))

/-- 8xy0 LD Vx, Vy (R96). -/
def execLdReg (x y : RegIx) (s : State) : Result := finish .next (s.writeV x (s.readV y))

/-- 8xy1 OR Vx, Vy: no flag (R97). -/
def execOrReg (x y : RegIx) (s : State) : Result := finish .next (s.writeV x (s.readV x ||| s.readV y))

/-- 8xy2 AND Vx, Vy: no flag (R98). -/
def execAndReg (x y : RegIx) (s : State) : Result := finish .next (s.writeV x (s.readV x &&& s.readV y))

/-- 8xy3 XOR Vx, Vy: no flag (R99). -/
def execXorReg (x y : RegIx) (s : State) : Result := finish .next (s.writeV x (s.readV x ^^^ s.readV y))

/-- 8xy4 ADD Vx, Vy: the result and then the carry, both from the start values (R93, R100). -/
def execAddReg (x y : RegIx) (s : State) : Result :=
  finish .next ((s.writeV x (addByte (s.readV x) (s.readV y))).writeFlag (carryFlag (s.readV x) (s.readV y)))

/-- 8xy5 SUB Vx, Vy (R93, R101). -/
def execSub (x y : RegIx) (s : State) : Result :=
  finish .next (s.flagThenResult (greaterFlag (s.readV x) (s.readV y)) x fun r => subByte (r.readV x) (r.readV y))

/-- 8xy6 SHR Vx: `y` is ignored (R93, R102). -/
def execShr (x _y : RegIx) (s : State) : Result :=
  finish .next (s.flagThenResult (shiftedOutRight (s.readV x)) x fun r => shiftRightOne (r.readV x))

/-- 8xy7 SUBN Vx, Vy (R93, R103). -/
def execSubn (x y : RegIx) (s : State) : Result :=
  finish .next (s.flagThenResult (greaterFlag (s.readV y) (s.readV x)) x fun r => subByte (r.readV y) (r.readV x))

/-- 8xyE SHL Vx: `y` is ignored (R93, R104). -/
def execShl (x _y : RegIx) (s : State) : Result :=
  finish .next (s.flagThenResult (shiftedOutLeft (s.readV x)) x fun r => shiftLeftOne (r.readV x))

/-- Cxkk RND Vx, kk: one draw, whatever kk (R105, D21). -/
def execRnd (x : RegIx) (kk : Byte) (s : State) : Result :=
  finish .next (s.takeDraw.writeV x (s.nextDraw &&& kk))

end Sys2Proof.Machine
end

