-- ==== Sys2Proof/Machine/Control.lean ====
section
/-!
DEFINITION. Control transfer (spec/41_control_flow.md): 00EE, 1nnn, 2nnn, 3xkk, 4xkk, 5xy0, 9xy0, Bnnn.
-/

namespace Sys2Proof.Machine

/-- 00EE RET (R84). -/
def execRet (s : State) : Result :=
  if s.sp = 0 then raise (.stackUnderflow s.pc) s
  else finish (.jump (s.slot (s.sp - 1))) s.pop

/-- 1nnn JP nnn (R85). -/
def execJp (nnn : Imm12) (s : State) : Result := finish (.jump (zext12 nnn)) s

/-- 2nnn CALL nnn (R86): pushes a + 2. The rule's condition is sp = 16, the largest sp there is (R26). -/
def execCall (nnn : Imm12) (s : State) : Result :=
  if Config.stackDepth ≤ s.sp then raise (.stackOverflow s.pc) s
  else finish (.jump (zext12 nnn)) (s.push (s.pc + 2))

/-- End a skip: past the next instruction when the condition holds (R78). -/
def skipIf (c : Bool) (s : State) : Result := finish (if c then .skip else .next) s

/-- 3xkk SE Vx, kk (R87). -/
def execSeImm (x : RegIx) (kk : Byte) (s : State) : Result := skipIf (s.readV x == kk) s

/-- 4xkk SNE Vx, kk (R88). -/
def execSneImm (x : RegIx) (kk : Byte) (s : State) : Result := skipIf (s.readV x != kk) s

/-- 5xy0 SE Vx, Vy (R89). -/
def execSeReg (x y : RegIx) (s : State) : Result := skipIf (s.readV x == s.readV y) s

/-- 9xy0 SNE Vx, Vy (R90). -/
def execSneReg (x y : RegIx) (s : State) : Result := skipIf (s.readV x != s.readV y) s

/-- Bnnn JP V0, nnn (R91). -/
def execJpV0 (nnn : Imm12) (s : State) : Result := finish (.jump (indexedTarget nnn (s.readV 0))) s

end Sys2Proof.Machine
end

