-- ==== Sys2Proof/Machine/DisplayInput.lean ====
section
/-!
DEFINITION. Display and input instructions (spec/45_display_input.md): 00E0, Dxyn, Ex9E, ExA1, Fx0A.
-/

namespace Sys2Proof.Machine

/-- 00E0 CLS (R117). -/
def execCls (s : State) : Result :=
  finish .next { s with disp := Vector.replicate Config.displayH 0 }

/-- The buffer and the collision after the sprite at I is drawn at column Vx, row Vy (R119). -/
def State.drawn (s : State) (x y : RegIx) (n : Nat) : Display × Bool :=
  drawRows (s.readV x).toNat (s.readBytes s.base n) (s.readV y).toNat (s.disp, false)

/-- The state after a draw: VF is set on a collision and never cleared (R119). -/
def State.afterDraw (s : State) (x y : RegIx) (n : Nat) : State :=
  let s' := { s with disp := (s.drawn x y n).1 }
  if (s.drawn x y n).2 then s'.writeFlag true else s'

/-- Dxyn DRW Vx, Vy, n (R119). -/
def execDrw (x y : RegIx) (n : Nat) (s : State) : Result :=
  afterCheck (checkRange s.base n) s (finish .next (s.afterDraw x y n))

/-- Ex9E SKP Vx (R120, R121). -/
def execSkp (x : RegIx) (s : State) : Result :=
  match s.testKey (s.readV x) with
  | .outOfRange => raise (.keyIndexOutOfRange s.pc (s.readV x)) s
  | .latch p => finish (if p then .skip else .next) s

/-- ExA1 SKNP Vx (R120, R122). -/
def execSknp (x : RegIx) (s : State) : Result :=
  match s.testKey (s.readV x) with
  | .outOfRange => raise (.keyIndexOutOfRange s.pc (s.readV x)) s
  | .latch p => finish (if p then .next else .skip) s

/-- Fx0A LD Vx, K: a poll that stays on the instruction while no key is pressed (R123). -/
def execLdVxK (x : RegIx) (s : State) : Result :=
  match s.lowestKey with
  | some k => finish .next (s.writeV x (BitVec.ofNat 8 k))
  | none => finish .stay s

end Sys2Proof.Machine
end

