-- ==== Sys2Proof/Machine/Index.lean ====
section
/-!
DEFINITION. The index register and memory transfers (spec/43_index_memory.md): Annn, Fx1E, Fx29, Fx33,
Fx55, Fx65. I is changed by the first three only (R106).
-/

namespace Sys2Proof.Machine

/-- Annn LD I, nnn (R107). -/
def execLdI (nnn : Imm12) (s : State) : Result := finish .next (s.writeI (zext12 nnn))

/-- Fx1E ADD I, Vx: no flag (R108). -/
def execAddI (x : RegIx) (s : State) : Result := finish .next (s.writeI (addIndex s.i (s.readV x)))

/-- Fx29 LD F, Vx (R109). -/
def execLdF (x : RegIx) (s : State) : Result := finish .next (s.writeI (glyphBase (s.readV x)))

/-- Check and store bytes from I (R47, R53). -/
def storeFromI (bs : List Byte) (s : State) : Result :=
  afterCheck (checkStore s.params.fontWrite s.base bs.length) s (finish .next (s.storeBytes s.base bs))

/-- Fx33 LD B, Vx (R110). -/
def execLdB (x : RegIx) (s : State) : Result := storeFromI (bcdDigits (s.readV x)) s

/-- Fx55 LD [I], Vx (R111). -/
def execLdMemVx (x : RegIx) (s : State) : Result := storeFromI (s.regsUpTo x) s

/-- Fx65 LD Vx, [I] (R112). -/
def execLdVxMem (x : RegIx) (s : State) : Result :=
  afterCheck (checkRange s.base (x.val + 1)) s (finish .next (s.loadRegs s.base x))

end Sys2Proof.Machine
end

