-- ==== Sys2Proof/Machine/Timers.lean ====
section
/-!
DEFINITION. Timer instructions (spec/44_timers.md): Fx07, Fx15, Fx18. The tick of the same step comes
after them (R79, R113).
-/

namespace Sys2Proof.Machine

/-- Fx07 LD Vx, DT: the value before this step's tick (R114). -/
def execLdVxDt (x : RegIx) (s : State) : Result := finish .next (s.writeV x s.dt)

/-- Fx15 LD DT, Vx (R115). -/
def execLdDtVx (x : RegIx) (s : State) : Result := finish .next { s with dt := s.readV x }

/-- Fx18 LD ST, Vx (R116). -/
def execLdStVx (x : RegIx) (s : State) : Result := finish .next { s with st := s.readV x }

end Sys2Proof.Machine
end

