-- ==== Sys2Proof/Machine/Step.lean ====
section
/-!
DEFINITION. One step of the machine (spec/40_execution_cycle.md R75).
-/

namespace Sys2Proof.Machine

/-- `step()` of R75. It answers `next` with the state after the call, the fault status set where the
call returned `Err` for a fault raised in it (R80); a machine whose fault status is already set is
halted and answers `fault` with that same fault, no state changing (R127). -/
def step (s : State) : Host.Outcome State Fault Refusal :=
  match s.fault with
  | some f => .fault f
  | none =>
    match fetchFault s with
    | some a => raise (.addressOutOfRange a) s
    | none =>
      match decodeWord (fetchWord s) with
      | some i => endStep (exec i (latchOpcode s))
      | none => endStep (execUndefined (latchOpcode s))

/-- The state with the opcode table's word `w` of `nbits` bits stored where the next step fetches it. -/
def State.withFetchWord (s : State) (nbits w : Nat) : State :=
  placeWord s (BitVec.ofNat 16 (w % 2 ^ nbits))

end Sys2Proof.Machine
end

