-- ==== Sys2Proof/Machine/Ports.lean ====
section
/-!
DEFINITION. The host's ports (spec/60_exceptions.md R135 to R141): each is an operation the host calls
between steps and completes before the next begins. A run is a list of port calls (R145).
-/

namespace Sys2Proof.Machine

/-- The numeric code of a fault (R124, D25). -/
def Fault.code : Fault → Nat
  | .stackOverflow _ => 1
  | .stackUnderflow _ => 2
  | .addressOutOfRange _ => 3
  | .keyIndexOutOfRange _ _ => 4

/-- The errors of the host operations (R129): no faults, they change nothing. -/
inductive HostError where
  | romTooLarge
  | invalidKey
deriving DecidableEq, Repr

/-- The numeric code of a host error, in a space of its own (R129, D25). -/
def HostError.code : HostError → Nat
  | .romTooLarge => 1
  | .invalidKey => 2

/-- Construct / reset (R135, R146) with the parameters. The count of draws goes on, so the draws
after a reset are a fresh part of the free sequence (notes/assumptions/4.md). -/
def portReset (p : Config.Params) (ds : List Byte) (s : State) : State :=
  { State.resetWith p ds with drawsTaken := s.drawsTaken }

/-- `load(bytes)` (R136). -/
def portLoad (bytes : List Byte) (s : State) : Except HostError State :=
  if Config.romMax < bytes.length then .error .romTooLarge
  else .ok (s.pokeBytes Config.progBase bytes)

/-- `set_key(code, pressed)` (R137). -/
def portSetKey (code : Nat) (pressed : Bool) (s : State) : Except HostError State :=
  if h : code < Config.numKeys then .ok { s with key := s.key.set code pressed } else .error .invalidKey

/-- What a port call returns to the host. -/
inductive Reply where
  | ok
  | err (f : Fault)               -- `Err(f)` of `step()` (R74, R75)
  | hostError (e : HostError)     -- R129
  | display (d : Display)         -- R138
  | sound (on : Bool)             -- R139
  | inspected (s : State)         -- R140
  | noMeaning (r : Refusal)       -- a refused step; no step of this model is refused
deriving DecidableEq, Repr

/-- `step()` as R75 gives it: what it returns and the state after it. -/
def portStep (s : State) : Reply × State :=
  match step s with
  | .next t =>
    match t.fault with
    | some f => (.err f, t)
    | none => (.ok, t)
  | .fault f => (.err f, s)
  | .refused r => (.noMeaning r, s)

/-- The sound signal: the level ST ≠ 0 (R139, D22). -/
def portSound (s : State) : Bool := s.st != 0

/-- One call of a port (R135). -/
inductive PortCall where
  | reset (p : Config.Params) (ds : List Byte)
  | load (bytes : List Byte)
  | setKey (code : Nat) (pressed : Bool)
  | step
  | displayRead
  | soundSignal
  | inspect
deriving DecidableEq, Repr

/-- The reply and the state of a host operation that may be rejected, leaving the state as it is (R129). -/
def replyOf (s : State) : Except HostError State → Reply × State
  | .ok t => (.ok, t)
  | .error e => (.hostError e, s)

/-- One port call (R135). -/
def portCall (c : PortCall) (s : State) : Reply × State :=
  match c with
  | .reset p ds => (.ok, portReset p ds s)
  | .load bytes => replyOf s (portLoad bytes s)
  | .setKey code pressed => replyOf s (portSetKey code pressed s)
  | .step => portStep s
  | .displayRead => (.display s.disp, s)
  | .soundSignal => (.sound (portSound s), s)
  | .inspect => (.inspected s, s)

/-- The state after a sequence of port calls (R145). -/
def portRun : List PortCall → State → State
  | [], s => s
  | c :: cs, s => portRun cs (portCall c s).2

end Sys2Proof.Machine
end

