-- ==== Sys2Proof/Safety.lean ====
section
/-!
DEFINITION. The terms the claims are stated in: what an instruction may touch, the invariant of the
machine, the pixel of a sprite, and sequences of steps.
-/

namespace Sys2Proof.Machine

/-- What an instruction may change besides pc. Whatever is not named here is left as it was. -/
structure Touches where
  regs       : List RegIx := []
  memory     : Bool := false
  index      : Bool := false
  stack      : Bool := false
  delayTimer : Bool := false
  soundTimer : Bool := false
  display    : Bool := false
  draws      : Bool := false

/-- `t` is `s` but for pc and what `w` names. The key latches, the fault status, the opcode register
and the parameters are never named: no instruction that completes writes them. -/
structure Frame (w : Touches) (s t : State) : Prop where
  regs       : ∀ r, r ∉ w.regs → t.readV r = s.readV r
  memory     : w.memory = false → ∀ a, t.readByte a = s.readByte a
  index      : w.index = false → t.i = s.i
  stack      : w.stack = false → t.sp = s.sp ∧ t.stack = s.stack
  delayTimer : w.delayTimer = false → t.dt = s.dt
  soundTimer : w.soundTimer = false → t.st = s.st
  display    : w.display = false → t.disp = s.disp
  draws      : w.draws = false → t.draws = s.draws ∧ t.drawsTaken = s.drawsTaken
  key        : t.key = s.key
  fault      : t.fault = s.fault
  opcode     : t.opcode = s.opcode
  params     : t.params = s.params

/-- The invariant of the machine: memory in canonical form (R41), sp within 0..16 (R26), pc at most
0x10FE (R23), and every stack slot at most 0x1000, the largest address 2nnn pushes (R23, R86). -/
structure Inv (s : State) : Prop where
  memory : Memory.wf s.params.font s.mem = true
  sp     : s.sp ≤ Config.stackDepth
  pc     : s.pc.toNat ≤ 0x10FE
  slots  : ∀ j, (s.slot j).toNat ≤ 0x1000

/-- The faults of the instructions (R124's table): does instruction `i` raise `f` from `s`? -/
def Raises (i : Instr) (s : State) (f : Fault) : Prop :=
  (∃ nnn, i = .call nnn ∧ s.sp = 16 ∧ f = .stackOverflow s.pc) ∨
  (i = .ret ∧ s.sp = 0 ∧ f = .stackUnderflow s.pc) ∨
  (∃ x y n, i = .drw x y n ∧ 0 < n ∧ 4096 < s.i.toNat + n ∧
    f = .addressOutOfRange (max s.i.toNat 4096)) ∨
  (∃ x, i = .ldB x ∧ 4096 < s.i.toNat + 3 ∧ f = .addressOutOfRange (max s.i.toNat 4096)) ∨
  (∃ x, (i = .ldMemVx x ∨ i = .ldVxMem x) ∧ 4096 < s.i.toNat + x.val + 1 ∧
    f = .addressOutOfRange (max s.i.toNat 4096)) ∨
  (∃ x, (i = .ldB x ∨ i = .ldMemVx x) ∧ s.params.fontWrite = .fault ∧ s.i.toNat < 80 ∧
    f = .addressOutOfRange s.i.toNat) ∨
  (∃ x, (i = .skp x ∨ i = .sknp x) ∧ s.params.keyIndex = .fault ∧ 15 < (s.readV x).toNat ∧
    f = .keyIndexOutOfRange s.pc (s.readV x))

/-- Does the sprite of `n` bytes at I, drawn with its top-left pixel at row `y0`, column `x0`, have a
1 bit on the cell of row `r`, column `c` (R118, R119)? -/
def spriteBit (s : State) (x0 y0 n r c : Nat) : Bool :=
  let dr := (r + Config.displayH - y0 % Config.displayH) % Config.displayH
  let dc := (c + Config.displayW - x0 % Config.displayW) % Config.displayW
  dr < n && dc < 8 && (s.readByte (s.base + dr)).getLsbD (7 - dc)

/-- Does the sprite turn some cell from on to off (R13, R119)? -/
def Collides (s : State) (x0 y0 n : Nat) : Prop :=
  ∃ r c, r < Config.displayH ∧ c < Config.displayW ∧
    spriteBit s x0 y0 n r c = true ∧ s.disp.cell r c = true

/-- `n` steps from `s` to `t`, none of which faults, and none of which runs an instruction that `p`
holds of. -/
def StepsAvoiding (p : Instr → Bool) : Nat → State → State → Prop
  | 0, s, t => t = s
  | n + 1, s, t =>
    (∀ i, decodeWord (fetchWord s) = some i → p i = false) ∧
      ∃ u, step s = .next u ∧ u.fault = none ∧ StepsAvoiding p n u t

/-- Is it Fx15? -/
def writesDelayTimer : Instr → Bool
  | .ldDtVx _ => true
  | _ => false

/-- Is it Fx18? -/
def writesSoundTimer : Instr → Bool
  | .ldStVx _ => true
  | _ => false

/-- Two states that agree on everything but the stack slots at and above sp (R27). -/
structure AgreeOnLiveStack (s t : State) : Prop where
  slots : ∀ j, j < s.sp → t.slot j = s.slot j
  rest  : t = { s with stack := t.stack }

/-- The machine can fetch: it is not halted and both bytes at pc are inside memory (R75, R76). -/
def Fetches (s : State) : Prop := s.fault = none ∧ s.pc.toNat + 1 < Config.memSize

end Sys2Proof.Machine
end

