-- ==== Sys2Proof/Certificates/Slice0/Obligations.lean ====
section
/-!
DEFINITION. The statements for the provers. Each docstring names the rule of spec/ it formalises.
An encoding clause gives the word of the instruction field by field (spec/30_encoding.md R63).
-/

open Sys2Proof Sys2Proof.Machine

/-! ## Encoding -/

/-- Sample words of every family, read from the patterns of R65 to R70. -/
def Obligations.SampleWordsDecode : Prop :=
  decodeWord 0x00E0#16 = some .cls ∧ decodeWord 0x1234#16 = some (.jp 0x234#12) ∧
  decodeWord 0x332A#16 = some (.seImm 3 0x2A#8) ∧ decodeWord 0x5120#16 = some (.seReg 1 2) ∧
  decodeWord 0x8AB7#16 = some (.subn 10 11) ∧ decodeWord 0x801E#16 = some (.shl 0 1) ∧
  decodeWord 0xD12F#16 = some (.drw 1 2 15) ∧ decodeWord 0xE59E#16 = some (.skp 5) ∧
  decodeWord 0xFA33#16 = some (.ldB 10) ∧ decodeWord 0xFF65#16 = some (.ldVxMem 15) ∧
  decodeWord 0x0123#16 = none ∧ decodeWord 0x5121#16 = none ∧ decodeWord 0x8018#16 = none ∧
  decodeWord 0xE59F#16 = none ∧ decodeWord 0xF0FF#16 = none

/-- Decoding the encoding of a well-formed instruction gives it back, as a word and as bytes (R60 to R70). -/
def Obligations.DecodeInvertsEncode : Prop :=
  ∀ (i : Instr) (rest : List Byte), WellFormed i = true →
    decodeWord (encodeWord i) = some i ∧ decode (encode i ++ rest) = .ok (i, rest)

/-- A word that decodes is the encoding of what it decodes to, which is well-formed: no two words
stand for one instruction (the ignored y of 8xy6 and 8xyE is kept in the term). -/
def Obligations.EncodeInvertsDecode : Prop :=
  ∀ (w : Word) (i : Instr), decodeWord w = some i → WellFormed i = true ∧ encodeWord i = w

/-- "No word matches two patterns" (R71, which the spec marks "derived: from rules R65 to R70"). -/
def Obligations.NoWordMatchesTwoRows : Prop :=
  ∀ (w : Word) (p q : OpcodeRow), p ∈ opcodeRows → q ∈ opcodeRows →
    p.matches w = true → q.matches w = true → p = q

/-- The decoder rejects a word exactly when it matches none of the 34 patterns (R72), and a decoded
instruction's row matches the word. -/
def Obligations.UndefinedWordsMatchNoRow : Prop :=
  opcodeRows.length = 34 ∧
  ∀ w : Word, (decodeWord w = none ↔ ∀ r ∈ opcodeRows, r.matches w = false) ∧
    ∀ i, decodeWord w = some i → rowOf i ∈ opcodeRows ∧ (rowOf i).matches w = true

/-! ## The step -/

/-- A step runs the decoded instruction (R75): on the state whose opcode register holds the fetched
word, then one tick unless the instruction raised a fault. -/
def Obligations.StepRunsDecodedInstruction : Prop :=
  ∀ (s : State) (i : Instr), Fetches s → decodeWord (fetchWord s) = some i →
    step s = match exec i { s with opcode := fetchWord s } with
      | .next t => .next (if t.fault = none then t.tick else t)
      | .fault f => .fault f
      | .refused r => .refused r

/-- The fetch (R76): big-endian, from any pc, and a fault recording the lowest address out of range. -/
def Obligations.FetchReadsTwoBytesOrFaults : Prop :=
  ∀ s : State, s.fault = none →
    (fetchWord s).toNat = (s.readByte s.pc.toNat).toNat * 256 + (s.readByte (s.pc.toNat + 1)).toNat ∧
    (s.pc.toNat < 0xFFF → ∃ t, step s = .next t ∧ t.opcode = fetchWord s) ∧
    (s.pc.toNat = 0xFFF → step s = .next { s with fault := some (.addressOutOfRange 4096) }) ∧
    (4096 ≤ s.pc.toNat → step s = .next { s with fault := some (.addressOutOfRange s.pc.toNat) })

/-- An undefined word is a no-op that advances and ticks (R81). -/
def Obligations.UndefinedWordIsNoOp : Prop :=
  ∀ s : State, Fetches s → decodeWord (fetchWord s) = none →
    ∃ t, step s = .next t ∧ t.fault = none ∧ t.pc = s.pc + 2 ∧ t.opcode = fetchWord s ∧
      t.dt.toNat = s.dt.toNat - 1 ∧ t.st.toNat = s.st.toNat - 1 ∧
      t = { s with pc := t.pc, opcode := t.opcode, dt := t.dt, st := t.st }

/-- A step that raises a fault commits nothing of the instruction (R80): only the fault status and, when
the fetch succeeded, the opcode register change; the timers do not tick. -/
def Obligations.FaultingStepCommitsNothing : Prop :=
  ∀ (s t : State) (f : Fault), s.fault = none → step s = .next t → t.fault = some f →
    t = { s with fault := some f, opcode := if s.pc.toNat + 1 < 4096 then fetchWord s else s.opcode }

/-- A step that does not fault ticks each timer once, after the instruction's own write (R79). -/
def Obligations.StepTicksBothTimers : Prop :=
  ∀ (s t : State), s.fault = none → step s = .next t → t.fault = none →
    (t.dt.toNat = match decodeWord (fetchWord s) with
      | some (.ldDtVx x) => (s.readV x).toNat - 1
      | _ => s.dt.toNat - 1) ∧
    (t.st.toNat = match decodeWord (fetchWord s) with
      | some (.ldStVx x) => (s.readV x).toNat - 1
      | _ => s.st.toNat - 1)

/-- The four next-pc outcomes (R78): after a step that does not fault, pc is a + 2, also after an undefined
word, except after a taken skip, a jump, call or return, and the busy-wait; it is at most 0x10FE. -/
def Obligations.NextPcOfEachInstruction : Prop :=
  ∀ s t : State, Fetches s → step s = .next t → t.fault = none →
    (t.pc = match decodeWord (fetchWord s) with
      | none => s.pc + 2
      | some .ret => s.slot (s.sp - 1)
      | some (.jp nnn) => nnn.setWidth 16
      | some (.call nnn) => nnn.setWidth 16
      | some (.jpV0 nnn) => nnn.setWidth 16 + (s.readV 0).setWidth 16
      | some (.seImm x kk) => if s.readV x = kk then s.pc + 4 else s.pc + 2
      | some (.sneImm x kk) => if s.readV x ≠ kk then s.pc + 4 else s.pc + 2
      | some (.seReg x y) => if s.readV x = s.readV y then s.pc + 4 else s.pc + 2
      | some (.sneReg x y) => if s.readV x ≠ s.readV y then s.pc + 4 else s.pc + 2
      | some (.skp x) => if s.testKey (s.readV x) = .latch true then s.pc + 4 else s.pc + 2
      | some (.sknp x) => if s.testKey (s.readV x) = .latch false then s.pc + 4 else s.pc + 2
      | some (.ldVxK _) => if (∃ k : Fin 16, s.pressed k.val = true) then s.pc + 2 else s.pc
      | some _ => s.pc + 2) ∧
    (Inv s → t.pc.toNat ≤ 0x10FE)

/-- After a fault the block is halted (R127): every later step returns the same fault and changes
nothing, load and set_key work and do not clear it, and reset does. -/
def Obligations.HaltedUntilReset : Prop :=
  ∀ (s : State) (f : Fault), s.fault = some f →
    step s = .fault f ∧ portStep s = (.err f, s) ∧
    (∀ bytes t, portLoad bytes s = .ok t → t.fault = some f) ∧
    (∀ bytes, bytes.length ≤ 3584 → ∃ t, portLoad bytes s = .ok t) ∧
    (∀ code b, code < 16 → ∃ t, portSetKey code b s = .ok t ∧ t.fault = some f ∧ t.pressed code = b) ∧
    (∀ c, (∀ p ds, c ≠ .reset p ds) → (portCall c s).2.fault = some f) ∧
    (∀ p ds, (portReset p ds s).fault = none)

/-- A step of a machine that is not halted always has a next state, and what `step()` returns is `Ok`
or `Err` of the fault the new status holds (R74, R75); no step is refused. -/
def Obligations.StepReturnsOkOrErr : Prop :=
  ∀ s : State, s.fault = none → ∃ t, step s = .next t ∧
    ((t.fault = none ∧ portStep s = (.ok, t)) ∨ ∃ f, t.fault = some f ∧ portStep s = (.err f, t))

/-- "The block raises exactly these faults" (R124): which instruction raises which fault, when, and what it
records (`Raises`); the fetch's own fault; and the numeric codes. -/
def Obligations.FaultsOfTheBlock : Prop :=
  (∀ (i : Instr) (s t : State) (f : Fault), s.fault = none → s.sp ≤ 16 → exec i s = .next t →
    (t.fault = some f ↔ Raises i s f)) ∧
  (∀ (s t : State) (f : Fault), s.fault = none → s.sp ≤ 16 → step s = .next t →
    (t.fault = some f ↔
      (4095 < s.pc.toNat + 1 ∧ f = .addressOutOfRange (max s.pc.toNat 4096)) ∨
      (s.pc.toNat + 1 ≤ 4095 ∧ ∃ i, decodeWord (fetchWord s) = some i ∧ Raises i s f))) ∧
  (∀ a v n, (Fault.stackOverflow a).code = 1 ∧ (Fault.stackUnderflow a).code = 2 ∧
    (Fault.addressOutOfRange n).code = 3 ∧ (Fault.keyIndexOutOfRange a v).code = 4)

/-! ## Invariants and whole-machine rules -/

/-- Every step keeps the invariant: memory canonical and within 4096 bytes (R41), sp in 0..16 (R26), pc at
most 0x10FE and stack slots at most 0x1000 (R23, which the spec marks "derived"). -/
def Obligations.StepKeepsInvariant : Prop :=
  ∀ s t : State, Inv s → step s = .next t → Inv t

/-- The invariant holds after reset, whatever the parameters (R23, R26, R40). -/
def Obligations.ResetMeetsInvariant : Prop :=
  (∀ p ds, Inv (State.resetWith p ds)) ∧ Inv State.reset

/-- Every call of a host port keeps the invariant (R135), so every run does (R145). -/
def Obligations.PortRunsKeepInvariant : Prop :=
  ∀ (cs : List PortCall) (s : State), Inv s → Inv (portRun cs s)

/-- No instruction writes the key latches (R33), and no step changes the construction parameters (R8). -/
def Obligations.StepKeepsKeysAndParameters : Prop :=
  ∀ s t : State, step s = .next t → t.key = s.key ∧ t.params = s.params

/-- Only 2nnn and 00EE write the stack and sp (R25). -/
def Obligations.OnlyCallAndReturnWriteStack : Prop :=
  ∀ (i : Instr) (s t : State), exec i s = .next t → (∀ nnn, i ≠ .call nnn) →
    t.stack = s.stack ∧ (i ≠ .ret → t.sp = s.sp)

/-- Only Fx33 and Fx55 write memory (R43, R44), and the fetch does not. -/
def Obligations.OnlyBcdAndStoreWriteMemory : Prop :=
  ∀ (i : Instr) (s t : State), exec i s = .next t → (∀ x, i ≠ .ldB x ∧ i ≠ .ldMemVx x) →
    t.mem = s.mem ∧ ∀ a, t.readByte a = s.readByte a

/-- Only Annn, Fx1E and Fx29 write I (R20), and only 00E0 and Dxyn write the display (R31). -/
def Obligations.WritersOfIndexAndDisplay : Prop :=
  ∀ (i : Instr) (s t : State), exec i s = .next t →
    ((∀ nnn x, i ≠ .ldI nnn ∧ i ≠ .addI x ∧ i ≠ .ldF x) → t.i = s.i) ∧
    ((∀ x y n, i ≠ .cls ∧ i ≠ .drw x y n) → t.disp = s.disp)

/-- Which registers each instruction may write (R16, which the spec marks "derived", and R18): Vx where the
rule says so, V0..Vx for Fx65, VF as a flag by 8xy4 to 8xyE and Dxyn, and no other register. -/
def Obligations.WritersOfRegisters : Prop :=
  ∀ (i : Instr) (s t : State) (r : RegIx), exec i s = .next t → t.readV r ≠ s.readV r →
    match i with
    | .ldImm x _ | .addImm x _ | .rnd x _ | .ldVxDt x | .ldVxK x => r = x
    | .ldReg x _ | .orReg x _ | .andReg x _ | .xorReg x _ => r = x
    | .addReg x _ | .sub x _ | .shr x _ | .subn x _ | .shl x _ => r = x ∨ r = 15
    | .ldVxMem x => r ≤ x
    | .drw _ _ _ => r = 15 ∧ t.readV r = 1
    | _ => False

/-- No instruction reads the opcode register (R36). -/
def Obligations.OpcodeRegisterNeverRead : Prop :=
  ∀ (i : Instr) (s t : State) (w : Word), exec i s = .next t →
    exec i { s with opcode := w } = .next { t with opcode := w }

/-- No instruction can read a stack slot at or above sp (R27). -/
def Obligations.StaleSlotsNeverRead : Prop :=
  ∀ (i : Instr) (s s' t : State), AgreeOnLiveStack s s' → exec i s = .next t →
    ∃ t', exec i s' = .next t' ∧ AgreeOnLiveStack t t'

/-- No instruction reads ST (R29): two states that differ in ST only go on alike. -/
def Obligations.SoundTimerNeverRead : Prop :=
  ∀ (i : Instr) (s t : State) (b : Byte), exec i s = .next t →
    exec i { s with st := b } =
      .next { t with st := match i with | .ldStVx x => s.readV x | _ => b }

/-! ## Control transfer -/

/-- 00EE RET (R84). -/
def Obligations.ReturnPopsOrUnderflows : Prop :=
  decodeWord 0x00EE#16 = some .ret ∧
  ∀ s : State,
    (s.sp = 0 → exec .ret s = .next { s with fault := some (.stackUnderflow s.pc) }) ∧
    (0 < s.sp → s.sp ≤ 16 → ∃ t, exec .ret s = .next t ∧ t.sp = s.sp - 1 ∧
      t.pc = s.slot (s.sp - 1) ∧ t.stack = s.stack ∧ Frame { stack := true } s t)

/-- 1nnn JP nnn (R85) and Bnnn JP V0, nnn (R91): the sum is not truncated to 12 bits. -/
def Obligations.JumpsSetThePc : Prop :=
  ∀ (nnn : Imm12) (s : State),
    decodeWord (formatNnn 0x1#4 nnn) = some (.jp nnn) ∧
    decodeWord (formatNnn 0xB#4 nnn) = some (.jpV0 nnn) ∧
    (∃ t, exec (.jp nnn) s = .next t ∧ t.pc.toNat = nnn.toNat ∧ Frame {} s t) ∧
    (∃ t, exec (.jpV0 nnn) s = .next t ∧ t.pc.toNat = nnn.toNat + (s.readV 0).toNat ∧ Frame {} s t)

/-- 2nnn CALL nnn (R86). -/
def Obligations.CallPushesOrOverflows : Prop :=
  ∀ (nnn : Imm12) (s : State),
    decodeWord (formatNnn 0x2#4 nnn) = some (.call nnn) ∧
    (s.sp = 16 → exec (.call nnn) s = .next { s with fault := some (.stackOverflow s.pc) }) ∧
    (s.sp < 16 → ∃ t, exec (.call nnn) s = .next t ∧ t.pc.toNat = nnn.toNat ∧ t.sp = s.sp + 1 ∧
      t.slot s.sp = s.pc + 2 ∧ (∀ j, j ≠ s.sp → t.slot j = s.slot j) ∧ Frame { stack := true } s t)

/-- A return undoes the call it matches: after 2nnn and then 00EE from whatever state the callee leaves
with the same stack, pc is the address after the call and sp is what it was (R84, R86). -/
def Obligations.ReturnUndoesCall : Prop :=
  ∀ (nnn : Imm12) (s t u : State), s.sp < 16 → exec (.call nnn) s = .next t →
    u.sp = t.sp → u.stack = t.stack →
    ∃ r, exec .ret u = .next r ∧ r.pc = s.pc + 2 ∧ r.sp = s.sp ∧ ∀ j, j < s.sp → r.slot j = s.slot j

/-- 3xkk SE Vx, kk (R87) and 4xkk SNE Vx, kk (R88). -/
def Obligations.SkipsOnImmediate : Prop :=
  ∀ (x : RegIx) (kk : Byte) (s : State),
    decodeWord (formatXkk 0x3#4 x kk) = some (.seImm x kk) ∧
    decodeWord (formatXkk 0x4#4 x kk) = some (.sneImm x kk) ∧
    (∃ t, exec (.seImm x kk) s = .next t ∧
      t.pc = (if s.readV x = kk then s.pc + 4 else s.pc + 2) ∧ Frame {} s t) ∧
    (∃ t, exec (.sneImm x kk) s = .next t ∧
      t.pc = (if s.readV x = kk then s.pc + 2 else s.pc + 4) ∧ Frame {} s t)

/-- 5xy0 SE Vx, Vy (R89) and 9xy0 SNE Vx, Vy (R90). -/
def Obligations.SkipsOnRegisters : Prop :=
  ∀ (x y : RegIx) (n : Nibble) (s : State),
    decodeWord (formatXyn 0x5#4 x y n) = (if n = 0 then some (.seReg x y) else none) ∧
    decodeWord (formatXyn 0x9#4 x y n) = (if n = 0 then some (.sneReg x y) else none) ∧
    (∃ t, exec (.seReg x y) s = .next t ∧
      t.pc = (if s.readV x = s.readV y then s.pc + 4 else s.pc + 2) ∧ Frame {} s t) ∧
    (∃ t, exec (.sneReg x y) s = .next t ∧
      t.pc = (if s.readV x = s.readV y then s.pc + 2 else s.pc + 4) ∧ Frame {} s t)

/-! ## Register loads and arithmetic -/

/-- 6xkk LD Vx, kk (R94) and 7xkk ADD Vx, kk, which touches no flag (R95). -/
def Obligations.LoadAndAddImmediate : Prop :=
  ∀ (x : RegIx) (kk : Byte) (s : State),
    decodeWord (formatXkk 0x6#4 x kk) = some (.ldImm x kk) ∧
    decodeWord (formatXkk 0x7#4 x kk) = some (.addImm x kk) ∧
    (∃ t, exec (.ldImm x kk) s = .next t ∧ t.readV x = kk ∧ t.pc = s.pc + 2 ∧ Frame { regs := [x] } s t) ∧
    (∃ t, exec (.addImm x kk) s = .next t ∧
      (t.readV x).toNat = ((s.readV x).toNat + kk.toNat) % 256 ∧ t.pc = s.pc + 2 ∧
      Frame { regs := [x] } s t)

/-- 8xy0 LD (R96), 8xy1 OR (R97), 8xy2 AND (R98), 8xy3 XOR (R99): bit by bit, and no flag. -/
def Obligations.MoveAndBitwise : Prop :=
  ∀ (x y : RegIx) (s : State),
    decodeWord (formatXyn 0x8#4 x y 0x0#4) = some (.ldReg x y) ∧
    decodeWord (formatXyn 0x8#4 x y 0x1#4) = some (.orReg x y) ∧
    decodeWord (formatXyn 0x8#4 x y 0x2#4) = some (.andReg x y) ∧
    decodeWord (formatXyn 0x8#4 x y 0x3#4) = some (.xorReg x y) ∧
    (∃ t, exec (.ldReg x y) s = .next t ∧ t.readV x = s.readV y ∧ t.pc = s.pc + 2 ∧
      Frame { regs := [x] } s t) ∧
    (∃ t, exec (.orReg x y) s = .next t ∧
      (∀ k, (t.readV x).getLsbD k = ((s.readV x).getLsbD k || (s.readV y).getLsbD k)) ∧
      t.pc = s.pc + 2 ∧ Frame { regs := [x] } s t) ∧
    (∃ t, exec (.andReg x y) s = .next t ∧
      (∀ k, (t.readV x).getLsbD k = ((s.readV x).getLsbD k && (s.readV y).getLsbD k)) ∧
      t.pc = s.pc + 2 ∧ Frame { regs := [x] } s t) ∧
    (∃ t, exec (.xorReg x y) s = .next t ∧
      (∀ k, (t.readV x).getLsbD k = ((s.readV x).getLsbD k != (s.readV y).getLsbD k)) ∧
      t.pc = s.pc + 2 ∧ Frame { regs := [x] } s t)

/-- 8xy4 ADD Vx, Vy (R100): the carry is written last, so x = 15 leaves VF = carry under both settings. -/
def Obligations.AddRegistersSetsCarry : Prop :=
  ∀ (x y : RegIx) (s : State),
    decodeWord (formatXyn 0x8#4 x y 0x4#4) = some (.addReg x y) ∧
    ∃ t, exec (.addReg x y) s = .next t ∧
      (x ≠ 15 → (t.readV x).toNat = ((s.readV x).toNat + (s.readV y).toNat) % 256) ∧
      (t.readV 15).toNat = (if (s.readV x).toNat + (s.readV y).toNat > 255 then 1 else 0) ∧
      t.pc = s.pc + 2 ∧ Frame { regs := [x, 15] } s t

/-- 8xy5 SUB Vx, Vy (R101) and 8xy7 SUBN Vx, Vy (R103), with VF as an operand or destination as
`P_VF_ALIAS` says (R93). `f` is the flag just written; under `sequential` it stands in VF when the
result is computed. The result of x = y = 15 under `sequential` is `SubtractVfFromItself`. -/
def Obligations.SubtractRegistersSetsFlag : Prop :=
  ∀ (x y : RegIx) (s : State),
    decodeWord (formatXyn 0x8#4 x y 0x5#4) = some (.sub x y) ∧
    decodeWord (formatXyn 0x8#4 x y 0x7#4) = some (.subn x y) ∧
    (∃ t f vx vy, exec (.sub x y) s = .next t ∧
      f = (if (s.readV x).toNat > (s.readV y).toNat then 1 else 0) ∧
      vx = (if s.params.vfAlias = .sequential ∧ x = 15 then f else (s.readV x).toNat) ∧
      vy = (if s.params.vfAlias = .sequential ∧ y = 15 then f else (s.readV y).toNat) ∧
      (¬ (s.params.vfAlias = .sequential ∧ x = 15 ∧ y = 15) →
        (t.readV x).toNat = (vx + 256 - vy) % 256) ∧
      (x ≠ 15 → (t.readV 15).toNat = f) ∧ t.pc = s.pc + 2 ∧ Frame { regs := [x, 15] } s t) ∧
    (∃ t f vx vy, exec (.subn x y) s = .next t ∧
      f = (if (s.readV y).toNat > (s.readV x).toNat then 1 else 0) ∧
      vx = (if s.params.vfAlias = .sequential ∧ x = 15 then f else (s.readV x).toNat) ∧
      vy = (if s.params.vfAlias = .sequential ∧ y = 15 then f else (s.readV y).toNat) ∧
      (¬ (s.params.vfAlias = .sequential ∧ x = 15 ∧ y = 15) →
        (t.readV x).toNat = (vy + 256 - vx) % 256) ∧
      (x ≠ 15 → (t.readV 15).toNat = f) ∧ t.pc = s.pc + 2 ∧ Frame { regs := [x, 15] } s t)

/-- 8FF5 and 8FF7 leave VF = 0 under both settings. Under `sequential` this is the model's reading
(DEDUCED, notes/assumptions/5.md): R93's general sentence has the second assignment read VF as it then
stands, for both operands. -/
def Obligations.SubtractVfFromItself : Prop :=
  ∀ s : State, (∃ t, exec (.sub 15 15) s = .next t ∧ t.readV 15 = 0) ∧
    ∃ t, exec (.subn 15 15) s = .next t ∧ t.readV 15 = 0

/-- 8xy6 SHR Vx (R102) and 8xyE SHL Vx (R104): by one bit, the bit shifted out to VF, y ignored, and
x = 15 as `P_VF_ALIAS` says (R93). -/
def Obligations.ShiftsSetFlag : Prop :=
  ∀ (x y : RegIx) (s : State),
    decodeWord (formatXyn 0x8#4 x y 0x6#4) = some (.shr x y) ∧
    decodeWord (formatXyn 0x8#4 x y 0xE#4) = some (.shl x y) ∧
    (∃ t f vx, exec (.shr x y) s = .next t ∧ f = (s.readV x).toNat % 2 ∧
      vx = (if s.params.vfAlias = .sequential ∧ x = 15 then f else (s.readV x).toNat) ∧
      (t.readV x).toNat = vx / 2 ∧ (x ≠ 15 → (t.readV 15).toNat = f) ∧
      t.pc = s.pc + 2 ∧ Frame { regs := [x, 15] } s t) ∧
    (∃ t f vx, exec (.shl x y) s = .next t ∧ f = (s.readV x).toNat / 128 ∧
      vx = (if s.params.vfAlias = .sequential ∧ x = 15 then f else (s.readV x).toNat) ∧
      (t.readV x).toNat = 2 * vx % 256 ∧ (x ≠ 15 → (t.readV 15).toNat = f) ∧
      t.pc = s.pc + 2 ∧ Frame { regs := [x, 15] } s t)

/-- "When neither x nor y is 15 the two settings agree" (R93): the setting changes nothing of what 8xy4
to 8xyE do then. -/
def Obligations.AliasSettingsAgreeAwayFromVf : Prop :=
  ∀ (x y : RegIx) (i : Instr) (s t : State) (v : Config.VfAlias), x ≠ 15 → y ≠ 15 →
    i ∈ [Instr.addReg x y, .sub x y, .shr x y, .subn x y, .shl x y] → exec i s = .next t →
    exec i { s with params := { s.params with vfAlias := v } } =
      .next { t with params := { s.params with vfAlias := v } }

/-- Cxkk RND Vx, kk (R105): the AND of kk and one draw r, of which nothing is assumed; only the bits set
in kk can be 1 in the result. -/
def Obligations.RandomMaskedByImmediate : Prop :=
  ∀ (x : RegIx) (kk : Byte) (s : State),
    decodeWord (formatXkk 0xC#4 x kk) = some (.rnd x kk) ∧
    ∃ t r, exec (.rnd x kk) s = .next t ∧ r = s.nextDraw ∧
      (∀ k, (t.readV x).getLsbD k = (r.getLsbD k && kk.getLsbD k)) ∧ (kk = 0 → t.readV x = 0) ∧
      (kk = 0xFF → t.readV x = r) ∧ t.drawsTaken = s.drawsTaken + 1 ∧ t.pc = s.pc + 2 ∧
      Frame { regs := [x], draws := true } s t

/-- How the model supplies the draws (DESIGN CHOICE, notes/assumptions/4.md): Cxkk takes the next injected
byte where there is one, and no other instruction takes a draw. -/
def Obligations.OnlyRandomTakesDraws : Prop :=
  (∀ (x : RegIx) (kk b : Byte) (bs : List Byte) (s : State), s.draws = b :: bs →
    ∃ t, exec (.rnd x kk) s = .next t ∧ t.readV x = b &&& kk ∧ t.draws = bs) ∧
  ∀ (i : Instr) (s t : State), exec i s = .next t → (∀ x kk, i ≠ .rnd x kk) →
    t.draws = s.draws ∧ t.drawsTaken = s.drawsTaken

/-! ## Index register and memory -/

/-- Annn LD I, nnn (R107), Fx1E ADD I, Vx without a flag (R108), Fx29 LD F, Vx without a mask (R109). -/
def Obligations.IndexRegisterWrites : Prop :=
  ∀ (nnn : Imm12) (x : RegIx) (s : State),
    decodeWord (formatNnn 0xA#4 nnn) = some (.ldI nnn) ∧
    decodeWord (formatXkk 0xF#4 x 0x1E#8) = some (.addI x) ∧
    decodeWord (formatXkk 0xF#4 x 0x29#8) = some (.ldF x) ∧
    (∃ t, exec (.ldI nnn) s = .next t ∧ t.i.toNat = nnn.toNat ∧ t.pc = s.pc + 2 ∧
      Frame { index := true } s t) ∧
    (∃ t, exec (.addI x) s = .next t ∧ t.i.toNat = (s.i.toNat + (s.readV x).toNat) % 65536 ∧
      t.pc = s.pc + 2 ∧ Frame { index := true } s t) ∧
    (∃ t, exec (.ldF x) s = .next t ∧ t.i.toNat = 5 * (s.readV x).toNat ∧ t.pc = s.pc + 2 ∧
      Frame { index := true } s t)

/-- Fx33 LD B, Vx (R110): the three digits at I, I+1, I+2 and no other byte, less the bytes that
`P_FONT_WRITE = ignore` drops below 80; I is unchanged. Out of range, and below 80 under
`P_FONT_WRITE = fault`, it raises AddressOutOfRange and stores nothing. -/
def Obligations.BcdStoresThreeDigits : Prop :=
  ∀ (x : RegIx) (s : State),
    decodeWord (formatXkk 0xF#4 x 0x33#8) = some (.ldB x) ∧
    (s.base + 2 ≤ 4095 → (s.params.fontWrite = .fault → 80 ≤ s.base) →
      ∃ t, exec (.ldB x) s = .next t ∧
        (∀ a, (t.readByte a).toNat =
          if s.params.fontWrite = .ignore ∧ a < 80 then (s.readByte a).toNat
          else if a = s.base then (s.readV x).toNat / 100
          else if a = s.base + 1 then (s.readV x).toNat / 10 % 10
          else if a = s.base + 2 then (s.readV x).toNat % 10
          else (s.readByte a).toNat) ∧
        t.pc = s.pc + 2 ∧ Frame { memory := true } s t) ∧
    (4095 < s.base + 2 →
      exec (.ldB x) s = .next { s with fault := some (.addressOutOfRange (max s.base 4096)) }) ∧
    (s.params.fontWrite = .fault → s.base < 80 →
      exec (.ldB x) s = .next { s with fault := some (.addressOutOfRange s.base) })

/-- Fx55 LD [I], Vx (R111): V0..Vx at I..I+x and no other byte, less the bytes that
`P_FONT_WRITE = ignore` drops below 80; I is unchanged. Out of range, and below 80 under
`P_FONT_WRITE = fault`, it raises AddressOutOfRange and stores nothing. -/
def Obligations.StoreRegistersFromIndex : Prop :=
  ∀ (x : RegIx) (s : State),
    decodeWord (formatXkk 0xF#4 x 0x55#8) = some (.ldMemVx x) ∧
    (s.base + x.val ≤ 4095 → (s.params.fontWrite = .fault → 80 ≤ s.base) →
      ∃ t, exec (.ldMemVx x) s = .next t ∧
        (∀ r : RegIx, r ≤ x → ¬ (s.params.fontWrite = .ignore ∧ s.base + r.val < 80) →
          t.readByte (s.base + r.val) = s.readV r) ∧
        (∀ a, a < s.base ∨ s.base + x.val < a ∨ (s.params.fontWrite = .ignore ∧ a < 80) →
          t.readByte a = s.readByte a) ∧
        t.pc = s.pc + 2 ∧ Frame { memory := true } s t) ∧
    (4095 < s.base + x.val →
      exec (.ldMemVx x) s = .next { s with fault := some (.addressOutOfRange (max s.base 4096)) }) ∧
    (s.params.fontWrite = .fault → s.base < 80 →
      exec (.ldMemVx x) s = .next { s with fault := some (.addressOutOfRange s.base) })

/-- The three settings of `P_FONT_WRITE` (R47), for the bytes `bs` that Fx33 or Fx55 stores from I: written
like any other, dropped below 80, or AddressOutOfRange at the lowest address below 80. `load` never
writes below 0x200. -/
def Obligations.FontWriteSettings : Prop :=
  (∀ (x : RegIx) (i : Instr) (bs : List Byte) (s : State),
    (i = .ldB x ∧ bs = bcdDigits (s.readV x)) ∨ (i = .ldMemVx x ∧ bs = s.regsUpTo x) →
    s.base + bs.length ≤ 4096 →
    (s.params.fontWrite = .write → ∃ t, exec i s = .next t ∧ t.fault = s.fault ∧
      ∀ k, (h : k < bs.length) → t.readByte (s.base + k) = bs[k]) ∧
    (s.params.fontWrite = .ignore → ∃ t, exec i s = .next t ∧ t.fault = s.fault ∧
      (∀ a, a < 80 → t.readByte a = s.readByte a) ∧
      ∀ k, (h : k < bs.length) → 80 ≤ s.base + k → t.readByte (s.base + k) = bs[k]) ∧
    (s.params.fontWrite = .fault →
      (s.base < 80 → exec i s = .next { s with fault := some (.addressOutOfRange s.base) }) ∧
      (80 ≤ s.base → ∃ t, exec i s = .next t ∧ t.fault = s.fault ∧
        ∀ k, (h : k < bs.length) → t.readByte (s.base + k) = bs[k]))) ∧
  ∀ (bytes : List Byte) (s t : State), portLoad bytes s = .ok t →
    ∀ a, a < 0x200 → t.readByte a = s.readByte a

/-- Fx65 LD Vx, [I] (R112): V0..Vx from I..I+x, no other register; I is unchanged. -/
def Obligations.LoadRegistersFromIndex : Prop :=
  ∀ (x : RegIx) (s : State),
    decodeWord (formatXkk 0xF#4 x 0x65#8) = some (.ldVxMem x) ∧
    (s.base + x.val ≤ 4095 → ∃ t, exec (.ldVxMem x) s = .next t ∧
      (∀ r : RegIx, r ≤ x → t.readV r = s.readByte (s.base + r.val)) ∧
      (∀ r : RegIx, x < r → t.readV r = s.readV r) ∧ t.pc = s.pc + 2 ∧
      Frame { regs := (List.finRange 16).filter (· ≤ x) } s t) ∧
    (4095 < s.base + x.val →
      exec (.ldVxMem x) s = .next { s with fault := some (.addressOutOfRange (max s.base 4096)) })

/-- Storing the registers and loading them back from the same I restores them (R111, R112). -/
def Obligations.LoadUndoesStore : Prop :=
  ∀ (x : RegIx) (s t u : State), s.base + x.val ≤ 4095 → (s.params.fontWrite = .write ∨ 80 ≤ s.base) →
    exec (.ldMemVx x) s = .next t → u.mem = t.mem → u.params = t.params → u.i = t.i →
    ∃ r, exec (.ldVxMem x) u = .next r ∧ ∀ k : RegIx, k ≤ x → r.readV k = s.readV k

/-- The fetch sees a byte stored by an earlier instruction (R59, which the spec marks "derived"): after Fx55
of two registers over the next instruction, the word fetched there is those two bytes. -/
def Obligations.FetchSeesEarlierStores : Prop :=
  ∀ s t : State, 80 ≤ s.base → s.base + 1 ≤ 4095 → s.base = s.pc.toNat + 2 →
    exec (.ldMemVx 1) s = .next t →
    (fetchWord t).toNat = (s.readV 0).toNat * 256 + (s.readV 1).toNat

/-! ## Timers -/

/-- Fx07 LD Vx, DT (R114), Fx15 LD DT, Vx (R115), Fx18 LD ST, Vx (R116), before the step's tick. -/
def Obligations.TimerInstructions : Prop :=
  ∀ (x : RegIx) (s : State),
    decodeWord (formatXkk 0xF#4 x 0x07#8) = some (.ldVxDt x) ∧
    decodeWord (formatXkk 0xF#4 x 0x15#8) = some (.ldDtVx x) ∧
    decodeWord (formatXkk 0xF#4 x 0x18#8) = some (.ldStVx x) ∧
    (∃ t, exec (.ldVxDt x) s = .next t ∧ t.readV x = s.dt ∧ t.pc = s.pc + 2 ∧
      Frame { regs := [x] } s t) ∧
    (∃ t, exec (.ldDtVx x) s = .next t ∧ t.dt = s.readV x ∧ t.pc = s.pc + 2 ∧
      Frame { delayTimer := true } s t) ∧
    (∃ t, exec (.ldStVx x) s = .next t ∧ t.st = s.readV x ∧ t.pc = s.pc + 2 ∧
      Frame { soundTimer := true } s t)

/-- What a program sees of a timer (R113, which the spec marks "derived: from rule R79 and rules R114,
R115"): v written in step k is max(v - j, 0) at the start of step k + j, and that is what Fx07 executed in
that step reads. `n` is j - 1. -/
def Obligations.TimerCountsDownFromWrite : Prop :=
  ∀ (s u t : State) (x : RegIx) (n : Nat), Fetches s → step s = .next u →
    (decodeWord (fetchWord s) = some (.ldDtVx x) → StepsAvoiding writesDelayTimer n u t →
      t.dt.toNat = (s.readV x).toNat - (n + 1) ∧
      ∀ y r, Fetches t → decodeWord (fetchWord t) = some (.ldVxDt y) → step t = .next r →
        (r.readV y).toNat = (s.readV x).toNat - (n + 1)) ∧
    (decodeWord (fetchWord s) = some (.ldStVx x) → StepsAvoiding writesSoundTimer n u t →
      t.st.toNat = (s.readV x).toNat - (n + 1) ∧
      (portSound t = true ↔ n + 1 < (s.readV x).toNat))

/-! ## Display and input -/

/-- 00E0 CLS (R117). -/
def Obligations.ClearScreen : Prop :=
  decodeWord 0x00E0#16 = some .cls ∧
  ∀ s : State, ∃ t, exec .cls s = .next t ∧ (∀ r c, t.disp.cell r c = false) ∧ t.pc = s.pc + 2 ∧
    Frame { display := true } s t

/-- Dxyn DRW Vx, Vy, n (R118, R119): every cell is XORed with the sprite's bit on it, wrapping in both
axes; VF is set to 1 on a collision and never cleared; n = 0 cannot fault. -/
def Obligations.DrawXorsSprite : Prop :=
  ∀ (x y : RegIx) (n : Nat) (s : State), n < 16 →
    decodeWord (formatXyn 0xD#4 x y (BitVec.ofNat 4 n)) = some (.drw x y n) ∧
    (n = 0 ∨ s.base + n ≤ 4096 → ∃ t, exec (.drw x y n) s = .next t ∧
      (∀ r c, r < 32 → c < 64 → t.disp.cell r c =
        (s.disp.cell r c != spriteBit s (s.readV x).toNat (s.readV y).toNat n r c)) ∧
      (Collides s (s.readV x).toNat (s.readV y).toNat n → t.readV 15 = 1) ∧
      (¬ Collides s (s.readV x).toNat (s.readV y).toNat n → t.readV 15 = s.readV 15) ∧
      t.pc = s.pc + 2 ∧ Frame { regs := [15], display := true } s t) ∧
    (0 < n → 4096 < s.base + n →
      exec (.drw x y n) s = .next { s with fault := some (.addressOutOfRange (max s.base 4096)) })

/-- Drawing the same sprite twice at the same place restores the buffer, and the second draw sets VF = 1
if the sprite has any 1 bit (R119, corner cases). x and y are not 15, since the first draw may write VF. -/
def Obligations.DrawTwiceRestores : Prop :=
  ∀ (x y : RegIx) (n : Nat) (s t : State), n < 16 → (n = 0 ∨ s.base + n ≤ 4096) → x ≠ 15 → y ≠ 15 →
    exec (.drw x y n) s = .next t →
    ∃ u, exec (.drw x y n) t = .next u ∧ u.disp = s.disp ∧
      ((∃ k j, k < n ∧ j < 8 ∧ (s.readByte (s.base + k)).getLsbD j = true) → u.readV 15 = 1)

/-- Ex9E SKP Vx (R121) and ExA1 SKNP Vx (R122), with a key number above 15 as `P_KEY_INDEX` says (R120). -/
def Obligations.KeySkips : Prop :=
  ∀ (x : RegIx) (s : State),
    decodeWord (formatXkk 0xE#4 x 0x9E#8) = some (.skp x) ∧
    decodeWord (formatXkk 0xE#4 x 0xA1#8) = some (.sknp x) ∧
    (∀ p : Bool,
      ((s.readV x).toNat ≤ 15 ∧ s.pressed (s.readV x).toNat = p ∨
        15 < (s.readV x).toNat ∧ s.params.keyIndex = .lowNibble ∧
          s.pressed ((s.readV x).toNat % 16) = p ∨
        15 < (s.readV x).toNat ∧ s.params.keyIndex = .notPressed ∧ p = false) →
      (∃ t, exec (.skp x) s = .next t ∧ t.pc = (if p then s.pc + 4 else s.pc + 2) ∧ Frame {} s t) ∧
      (∃ t, exec (.sknp x) s = .next t ∧ t.pc = (if p then s.pc + 2 else s.pc + 4) ∧ Frame {} s t)) ∧
    (15 < (s.readV x).toNat → s.params.keyIndex = .fault →
      exec (.skp x) s = .next { s with fault := some (.keyIndexOutOfRange s.pc (s.readV x)) } ∧
      exec (.sknp x) s = .next { s with fault := some (.keyIndexOutOfRange s.pc (s.readV x)) })

/-- Fx0A LD Vx, K (R123): the lowest pressed key and advance, else stay on the instruction and write
nothing. -/
def Obligations.KeyWaitPolls : Prop :=
  ∀ (x : RegIx) (s : State),
    decodeWord (formatXkk 0xF#4 x 0x0A#8) = some (.ldVxK x) ∧
    (∀ k, s.pressed k = true → (∀ j, j < k → s.pressed j = false) →
      ∃ t, exec (.ldVxK x) s = .next t ∧ (t.readV x).toNat = k ∧ t.pc = s.pc + 2 ∧
        Frame { regs := [x] } s t) ∧
    ((∀ k, s.pressed k = false) → exec (.ldVxK x) s = .next s)

/-! ## Reset and the host's ports -/

/-- What reset leaves (R40, R146): every component at the value of R40's table, for every setting of the
parameters, and the defaults of R8 in `State.reset`. -/
def Obligations.ResetState : Prop :=
  ∀ (p : Config.Params) (ds : List Byte) (s : State),
    (∀ a, (h : a < 80) → (portReset p ds s).readByte a = p.font[a]) ∧
    (∀ a, 80 ≤ a → (portReset p ds s).readByte a = 0) ∧
    (∀ r, (portReset p ds s).readV r = 0) ∧ (portReset p ds s).i = 0 ∧ (portReset p ds s).pc = 0x200#16 ∧
    (∀ j, (portReset p ds s).slot j = 0) ∧ (portReset p ds s).sp = 0 ∧ (portReset p ds s).dt = 0 ∧
    (portReset p ds s).st = 0 ∧ (∀ r c, (portReset p ds s).disp.cell r c = false) ∧
    (∀ k, (portReset p ds s).pressed k = false) ∧ (portReset p ds s).fault = none ∧
    (portReset p ds s).opcode = 0 ∧ (portReset p ds s).params = p ∧ (portReset p ds s).draws = ds ∧
    portReset defaultParams [] State.reset = State.reset

/-- `load(bytes)` (R136): the image from 0x200 and nothing else, or RomTooLarge and no change. -/
def Obligations.LoadWritesImageOrRejects : Prop :=
  ∀ (bytes : List Byte) (s : State),
    (bytes.length ≤ 3584 → ∃ t, portCall (.load bytes) s = (.ok, t) ∧
      (∀ k, (h : k < bytes.length) → t.readByte (0x200 + k) = bytes[k]) ∧
      (∀ a, a < 0x200 ∨ 0x200 + bytes.length ≤ a → t.readByte a = s.readByte a) ∧
      t = { s with mem := t.mem }) ∧
    (3584 < bytes.length → portCall (.load bytes) s = (.hostError .romTooLarge, s))

/-- Display read (R138), sound signal (R139) and state inspection (R140): what each returns, and that none
changes anything. -/
def Obligations.ObservationPortsReadOnly : Prop :=
  ∀ s : State, portCall .displayRead s = (.display s.disp, s) ∧
    (∃ on, portCall .soundSignal s = (.sound on, s) ∧ (on = true ↔ s.st ≠ 0)) ∧
    portCall .inspect s = (.inspected s, s)

/-- `set_key(code, pressed)` (R137): one latch, or InvalidKey and no change. -/
def Obligations.SetKeyWritesOneLatch : Prop :=
  ∀ (code : Nat) (b : Bool) (s : State),
    (code ≤ 15 → ∃ t, portCall (.setKey code b) s = (.ok, t) ∧ t.pressed code = b ∧
      (∀ k, k ≠ code → t.pressed k = s.pressed k) ∧ t = { s with key := t.key }) ∧
    (15 < code → portCall (.setKey code b) s = (.hostError .invalidKey, s))

/-- Stepping without a program (R149, which the spec marks "derived: from R76 and R81"): 1792 no-op steps
from reset reach pc = 0x1000 with everything else as it was, and step 1793 raises AddressOutOfRange(0x1000)
at the fetch. -/
def Obligations.SteppingWithoutProgram : Prop :=
  ∀ (p : Config.Params) (ds : List Byte),
    Host.Core.run Sys2Proof.core 1792 (State.resetWith p ds) =
      .next { State.resetWith p ds with pc := 0x1000#16 } ∧
    step { State.resetWith p ds with pc := 0x1000#16 } =
      .next { State.resetWith p ds with pc := 0x1000#16, fault := some (.addressOutOfRange 0x1000) }

/-- A word placed where the next step fetches is the word that step runs (R75, R76): the loading the
model's `withFetchWord` stands for. -/
def Obligations.PlacedWordIsFetched : Prop :=
  ∀ (s : State) (w : Nat), w < 65536 →
    Fetches (s.withFetchWord 16 w) ∧ fetchWord (s.withFetchWord 16 w) = BitVec.ofNat 16 w ∧
    decodeTableWord 16 w = decodeWord (BitVec.ofNat 16 w) ∧
    (s.fault = none → s.pc.toNat + 1 < 4096 → s.withFetchWord 16 w = { s with mem := (s.withFetchWord 16 w).mem })
end

