-- ==== Sys2Proof/Laws/Decode.lean ====
section
/-!
SUPPORT. The fields of a formatted word are the operands it was formatted from, and masking a formatted
word masks its fields (spec/30_encoding.md R61, R63).
-/

namespace Sys2Proof

variable (o n : Nibble) (x y : RegIx) (kk : Byte) (nnn : Imm12)

@[simp] theorem toFin_regBits : (regBits x).toFin = x := rfl

@[simp] theorem fieldFamily_formatNnn : fieldFamily (formatNnn o nnn) = o := by
  unfold fieldFamily formatNnn; ext i hi; interval_cases i <;> simp

@[simp] theorem fieldNnn_formatNnn : fieldNnn (formatNnn o nnn) = nnn := by
  unfold fieldNnn formatNnn; ext i hi; interval_cases i <;> simp

@[simp] theorem fieldFamily_formatXkk : fieldFamily (formatXkk o x kk) = o := by
  unfold fieldFamily formatXkk; ext i hi; interval_cases i <;> simp

theorem xBits_formatXkk : (formatXkk o x kk).extractLsb' 8 4 = regBits x := by
  unfold formatXkk; ext i hi; interval_cases i <;> simp

@[simp] theorem fieldX_formatXkk : fieldX (formatXkk o x kk) = x := by
  rw [fieldX, xBits_formatXkk, toFin_regBits]

@[simp] theorem fieldKk_formatXkk : fieldKk (formatXkk o x kk) = kk := by
  unfold fieldKk formatXkk; ext i hi; interval_cases i <;> simp

@[simp] theorem fieldFamily_formatXyn : fieldFamily (formatXyn o x y n) = o := by
  unfold fieldFamily formatXyn; ext i hi; interval_cases i <;> simp

theorem xBits_formatXyn : (formatXyn o x y n).extractLsb' 8 4 = regBits x := by
  unfold formatXyn; ext i hi; interval_cases i <;> simp

theorem yBits_formatXyn : (formatXyn o x y n).extractLsb' 4 4 = regBits y := by
  unfold formatXyn; ext i hi; interval_cases i <;> simp

@[simp] theorem fieldX_formatXyn : fieldX (formatXyn o x y n) = x := by
  rw [fieldX, xBits_formatXyn, toFin_regBits]

@[simp] theorem fieldY_formatXyn : fieldY (formatXyn o x y n) = y := by
  rw [fieldY, yBits_formatXyn, toFin_regBits]

@[simp] theorem fieldN_formatXyn : fieldN (formatXyn o x y n) = n := by
  unfold fieldN formatXyn; ext i hi; interval_cases i <;> simp

/-! A word is made of its fields. -/

theorem formatNnn_fields (w : Word) : formatNnn (fieldFamily w) (fieldNnn w) = w := by
  unfold formatNnn fieldFamily fieldNnn; ext i hi; interval_cases i <;> simp

@[simp] theorem regBits_fieldX (w : Word) : regBits (fieldX w) = w.extractLsb' 8 4 := rfl

@[simp] theorem regBits_fieldY (w : Word) : regBits (fieldY w) = w.extractLsb' 4 4 := rfl

theorem formatXkk_fields (w : Word) : formatXkk (fieldFamily w) (fieldX w) (fieldKk w) = w := by
  unfold formatXkk fieldFamily fieldKk
  rw [regBits_fieldX]; ext i hi; interval_cases i <;> simp

theorem formatXyn_fields (w : Word) : formatXyn (fieldFamily w) (fieldX w) (fieldY w) (fieldN w) = w := by
  unfold formatXyn fieldFamily fieldN
  rw [regBits_fieldX, regBits_fieldY]; ext i hi
  interval_cases i <;> simp only [BitVec.getElem_or, BitVec.getElem_shiftLeft, BitVec.getElem_setWidth,
    BitVec.getElem_extractLsb', BitVec.getLsbD_extractLsb', Nat.reduceLT, Nat.reduceSub, Nat.reduceAdd, decide_true, decide_false,
    Bool.not_true, Bool.not_false, Bool.true_and, Bool.false_and, Bool.or_false, Bool.false_or,
    BitVec.getLsbD_eq_getElem]

/-! Bytes of a word (R49). -/

@[simp] theorem wordOfBytes_highByte_lowByte (w : Word) : wordOfBytes (highByte w) (lowByte w) = w := by
  unfold wordOfBytes highByte lowByte; ext i hi; interval_cases i <;> simp

theorem wordOfBytes_toNat (hi lo : Byte) : (wordOfBytes hi lo).toNat = hi.toNat * 256 + lo.toNat := by
  unfold wordOfBytes
  have h1 := hi.isLt
  have h2 := lo.isLt
  rw [BitVec.toNat_or, BitVec.toNat_shiftLeft, BitVec.toNat_setWidth, BitVec.toNat_setWidth,
    Nat.mod_eq_of_lt (a := hi.toNat) (by omega), Nat.mod_eq_of_lt (a := lo.toNat) (by omega),
    Nat.shiftLeft_eq, Nat.mod_eq_of_lt (by omega), ← Nat.shiftLeft_eq,
    ← Nat.shiftLeft_add_eq_or_of_lt h2, Nat.shiftLeft_eq]

/-! Masks of the opcode table on formatted words. -/

theorem formatNnn_mask : formatNnn o nnn &&& 0xF000 = o.setWidth 16 <<< 12 := by
  unfold formatNnn; ext i hi; interval_cases i <;> simp

theorem formatXkk_mask : formatXkk o x kk &&& 0xF000 = o.setWidth 16 <<< 12 := by
  unfold formatXkk; ext i hi; interval_cases i <;> simp

theorem formatXkk_maskX : formatXkk o x kk &&& 0xF0FF = o.setWidth 16 <<< 12 ||| kk.setWidth 16 := by
  unfold formatXkk; ext i hi; interval_cases i <;> simp

theorem formatXyn_mask : formatXyn o x y n &&& 0xF000 = o.setWidth 16 <<< 12 := by
  unfold formatXyn; ext i hi; interval_cases i <;> simp

theorem formatXyn_maskXY : formatXyn o x y n &&& 0xF00F = o.setWidth 16 <<< 12 ||| n.setWidth 16 := by
  unfold formatXyn; ext i hi; interval_cases i <;> simp

end Sys2Proof
end

