-- ==== Sys2Proof/Laws/Memory.lean ====
section
/-!
SUPPORT. The laws of memory: a read after a write, and the canonical form, which every write keeps.
-/

namespace Sys2Proof.Machine

variable {font : Config.Font} {m : Memory} {a a' : Nat} {b : Byte}

theorem Memory.lookup_put (m : Memory) (a a' : Nat) (b : Byte) :
    (m.put a b).lookup a' = if a' = a then some b else m.lookup a' := by
  induction m with
  | nil => simp only [Memory.put, Memory.lookup]
  | cons c m ih =>
    simp only [Memory.put]
    split
    · simp only [Memory.lookup]
    · split
      · simp only [Memory.lookup]; grind
      · simp only [Memory.lookup, ih]; grind

theorem Memory.lookup_erase (m : Memory) (a a' : Nat) :
    (m.erase a).lookup a' = if a' = a then none else m.lookup a' := by
  induction m with
  | nil => simp [Memory.erase, Memory.lookup]
  | cons c m ih =>
    simp only [Memory.erase, List.filter_cons] at ih ⊢
    split
    · simp only [Memory.lookup, ih]; grind
    · rw [ih]; simp only [Memory.lookup]; grind

/-- A byte reads as the value last written to it, and a write changes no other byte (R54, R56). -/
theorem Memory.read_write (font : Config.Font) (m : Memory) (a a' : Nat) (b : Byte) :
    (m.write font a b).read font a' = if a' = a then b else m.read font a' := by
  unfold Memory.write Memory.read
  split
  · rw [Memory.lookup_erase]; split <;> simp_all
  · rw [Memory.lookup_put]; split <;> simp_all

@[simp] theorem Memory.read_nil (font : Config.Font) (a : Nat) :
    Memory.read font [] a = Memory.unlisted font a := rfl

/-! The canonical form. -/

theorem Memory.wf_iff (font : Config.Font) (m : Memory) :
    m.wf font = true ↔ m.Pairwise (fun c d => c.1 < d.1) ∧
      ∀ c ∈ m, c.1 < Config.memSize ∧ c.2 ≠ Memory.unlisted font c.1 := by
  simp [Memory.wf]

@[simp] theorem Memory.wf_nil (font : Config.Font) : Memory.wf font [] = true := rfl

theorem Memory.mem_put {c : Host.Cell} (h : c ∈ m.put a b) : c = (a, b) ∨ c ∈ m := by
  induction m with
  | nil => simpa [Memory.put] using h
  | cons d m ih =>
    simp only [Memory.put] at h
    split at h
    · simpa using h
    · split at h
      · rcases List.mem_cons.mp h with h | h
        · exact .inl h
        · exact .inr (List.mem_cons_of_mem _ h)
      · rcases List.mem_cons.mp h with h | h
        · exact .inr (h ▸ List.mem_cons_self ..)
        · exact (ih h).imp id (List.mem_cons_of_mem _)

theorem Memory.put_sorted (h : m.Pairwise fun c d => c.1 < d.1) :
    (m.put a b).Pairwise fun c d => c.1 < d.1 := by
  induction m with
  | nil => simp [Memory.put]
  | cons d m ih =>
    obtain ⟨hd, hm⟩ := List.pairwise_cons.mp h
    simp only [Memory.put]
    split
    · next hlt =>
      refine List.pairwise_cons.mpr ⟨fun c hc => ?_, h⟩
      rcases List.mem_cons.mp hc with rfl | hc
      · exact hlt
      · exact Nat.lt_trans hlt (hd c hc)
    · split
      · next heq => exact List.pairwise_cons.mpr ⟨fun c hc => heq ▸ hd c hc, hm⟩
      · next hlt hne =>
        refine List.pairwise_cons.mpr ⟨fun c hc => ?_, ih hm⟩
        rcases Memory.mem_put hc with rfl | hc
        · simp only; omega
        · exact hd c hc

/-- Every write inside the memory keeps the canonical form. -/
theorem Memory.write_wf (h : m.wf font = true) (ha : a < Config.memSize) (b : Byte) :
    (m.write font a b).wf font = true := by
  rw [Memory.wf_iff] at h ⊢
  unfold Memory.write
  split
  · exact ⟨h.1.filter _, fun c hc => h.2 c (List.mem_filter.mp hc).1⟩
  · next hb =>
    refine ⟨Memory.put_sorted h.1, fun c hc => ?_⟩
    rcases Memory.mem_put hc with rfl | hc
    · exact ⟨ha, hb⟩
    · exact h.2 c hc

/-! The range checks (R53, R47). -/

theorem checkRange_eq_none {base count : Nat} :
    checkRange base count = none ↔ count = 0 ∨ base + count ≤ 4096 := by
  unfold checkRange; split <;> simp_all

theorem checkRange_eq_some {base count bad : Nat} :
    checkRange base count = some bad ↔ 0 < count ∧ 4096 < base + count ∧ bad = max base 4096 := by
  unfold checkRange
  split
  · next h => simp only [Config.memSize] at h; simp only [reduceCtorEq, false_iff]; omega
  · next h => simp only [Config.memSize] at h; simp only [Option.some.injEq, Config.memSize]; omega

/-- The check reports an address the instruction would touch, of 4096 or above, and the lowest such (R53). -/
theorem checkRange_lowest {base count bad : Nat} (h : checkRange base count = some bad) :
    base ≤ bad ∧ bad < base + count ∧ 4096 ≤ bad ∧ ∀ a, base ≤ a → 4096 ≤ a → bad ≤ a := by
  obtain ⟨_, _, rfl⟩ := checkRange_eq_some.mp h
  exact ⟨by omega, by omega, by omega, fun a _ _ => by omega⟩

theorem checkStore_eq_none {fw : Config.FontWrite} {base count : Nat} :
    checkStore fw base count = none ↔
      (count = 0 ∨ base + count ≤ 4096) ∧ ¬ (fw = .fault ∧ count ≠ 0 ∧ base < 80) := by
  unfold checkStore
  cases h : checkRange base count with
  | none => simp [checkRange_eq_none.mp h]
  | some a =>
    have := checkRange_eq_some.mp h
    simp only [reduceCtorEq, false_iff]; rintro ⟨_, _⟩; omega

theorem checkStore_eq_some {fw : Config.FontWrite} {base count bad : Nat} :
    checkStore fw base count = some bad ↔
      (0 < count ∧ 4096 < base + count ∧ bad = max base 4096) ∨
      ((count = 0 ∨ base + count ≤ 4096) ∧ fw = .fault ∧ count ≠ 0 ∧ base < 80 ∧ bad = base) := by
  unfold checkStore
  cases h : checkRange base count with
  | none =>
    have h := checkRange_eq_none.mp h
    simp only [Option.ite_none_right_eq_some, Option.some.injEq]
    constructor
    · rintro ⟨⟨rfl, h0, h1⟩, rfl⟩; exact .inr ⟨h, rfl, h0, h1, rfl⟩
    · rintro (h' | ⟨_, rfl, h0, h1, rfl⟩)
      · omega
      · exact ⟨⟨rfl, h0, h1⟩, rfl⟩
  | some a =>
    obtain ⟨h0, h1, rfl⟩ := checkRange_eq_some.mp h
    simp only [Option.some.injEq]
    constructor
    · intro hb; exact .inl ⟨h0, h1, hb.symm⟩
    · rintro (⟨_, _, rfl⟩ | ⟨h', _⟩)
      · rfl
      · omega

end Sys2Proof.Machine
end

