-- ==== Sys2Proof/Laws/State.lean ====
section
/-!
SUPPORT. One lemma per field per update: what each named update of State leaves as it was.
-/

namespace Sys2Proof.Machine

/-! `State.writeV` changes v only. -/

@[simp] theorem State.writeV_mem (s : State) (x : RegIx) (b : Byte) : (s.writeV x b).mem = s.mem := rfl
@[simp] theorem State.writeV_i (s : State) (x : RegIx) (b : Byte) : (s.writeV x b).i = s.i := rfl
@[simp] theorem State.writeV_pc (s : State) (x : RegIx) (b : Byte) : (s.writeV x b).pc = s.pc := rfl
@[simp] theorem State.writeV_stack (s : State) (x : RegIx) (b : Byte) : (s.writeV x b).stack = s.stack := rfl
@[simp] theorem State.writeV_sp (s : State) (x : RegIx) (b : Byte) : (s.writeV x b).sp = s.sp := rfl
@[simp] theorem State.writeV_dt (s : State) (x : RegIx) (b : Byte) : (s.writeV x b).dt = s.dt := rfl
@[simp] theorem State.writeV_st (s : State) (x : RegIx) (b : Byte) : (s.writeV x b).st = s.st := rfl
@[simp] theorem State.writeV_disp (s : State) (x : RegIx) (b : Byte) : (s.writeV x b).disp = s.disp := rfl
@[simp] theorem State.writeV_key (s : State) (x : RegIx) (b : Byte) : (s.writeV x b).key = s.key := rfl
@[simp] theorem State.writeV_fault (s : State) (x : RegIx) (b : Byte) : (s.writeV x b).fault = s.fault := rfl
@[simp] theorem State.writeV_opcode (s : State) (x : RegIx) (b : Byte) : (s.writeV x b).opcode = s.opcode := rfl
@[simp] theorem State.writeV_params (s : State) (x : RegIx) (b : Byte) : (s.writeV x b).params = s.params := rfl
@[simp] theorem State.writeV_draws (s : State) (x : RegIx) (b : Byte) : (s.writeV x b).draws = s.draws := rfl
@[simp] theorem State.writeV_drawsTaken (s : State) (x : RegIx) (b : Byte) : (s.writeV x b).drawsTaken = s.drawsTaken := rfl

/-! `State.writeFlag` changes v only. -/

@[simp] theorem State.writeFlag_mem (s : State) (c : Bool) : (s.writeFlag c).mem = s.mem := rfl
@[simp] theorem State.writeFlag_i (s : State) (c : Bool) : (s.writeFlag c).i = s.i := rfl
@[simp] theorem State.writeFlag_pc (s : State) (c : Bool) : (s.writeFlag c).pc = s.pc := rfl
@[simp] theorem State.writeFlag_stack (s : State) (c : Bool) : (s.writeFlag c).stack = s.stack := rfl
@[simp] theorem State.writeFlag_sp (s : State) (c : Bool) : (s.writeFlag c).sp = s.sp := rfl
@[simp] theorem State.writeFlag_dt (s : State) (c : Bool) : (s.writeFlag c).dt = s.dt := rfl
@[simp] theorem State.writeFlag_st (s : State) (c : Bool) : (s.writeFlag c).st = s.st := rfl
@[simp] theorem State.writeFlag_disp (s : State) (c : Bool) : (s.writeFlag c).disp = s.disp := rfl
@[simp] theorem State.writeFlag_key (s : State) (c : Bool) : (s.writeFlag c).key = s.key := rfl
@[simp] theorem State.writeFlag_fault (s : State) (c : Bool) : (s.writeFlag c).fault = s.fault := rfl
@[simp] theorem State.writeFlag_opcode (s : State) (c : Bool) : (s.writeFlag c).opcode = s.opcode := rfl
@[simp] theorem State.writeFlag_params (s : State) (c : Bool) : (s.writeFlag c).params = s.params := rfl
@[simp] theorem State.writeFlag_draws (s : State) (c : Bool) : (s.writeFlag c).draws = s.draws := rfl
@[simp] theorem State.writeFlag_drawsTaken (s : State) (c : Bool) : (s.writeFlag c).drawsTaken = s.drawsTaken := rfl

/-! `State.writeI` changes i only. -/

@[simp] theorem State.writeI_mem (s : State) (w : Word) : (s.writeI w).mem = s.mem := rfl
@[simp] theorem State.writeI_v (s : State) (w : Word) : (s.writeI w).v = s.v := rfl
@[simp] theorem State.writeI_pc (s : State) (w : Word) : (s.writeI w).pc = s.pc := rfl
@[simp] theorem State.writeI_stack (s : State) (w : Word) : (s.writeI w).stack = s.stack := rfl
@[simp] theorem State.writeI_sp (s : State) (w : Word) : (s.writeI w).sp = s.sp := rfl
@[simp] theorem State.writeI_dt (s : State) (w : Word) : (s.writeI w).dt = s.dt := rfl
@[simp] theorem State.writeI_st (s : State) (w : Word) : (s.writeI w).st = s.st := rfl
@[simp] theorem State.writeI_disp (s : State) (w : Word) : (s.writeI w).disp = s.disp := rfl
@[simp] theorem State.writeI_key (s : State) (w : Word) : (s.writeI w).key = s.key := rfl
@[simp] theorem State.writeI_fault (s : State) (w : Word) : (s.writeI w).fault = s.fault := rfl
@[simp] theorem State.writeI_opcode (s : State) (w : Word) : (s.writeI w).opcode = s.opcode := rfl
@[simp] theorem State.writeI_params (s : State) (w : Word) : (s.writeI w).params = s.params := rfl
@[simp] theorem State.writeI_draws (s : State) (w : Word) : (s.writeI w).draws = s.draws := rfl
@[simp] theorem State.writeI_drawsTaken (s : State) (w : Word) : (s.writeI w).drawsTaken = s.drawsTaken := rfl

/-! `State.pokeByte` changes mem only. -/

@[simp] theorem State.pokeByte_v (s : State) (a : Nat) (b : Byte) : (s.pokeByte a b).v = s.v := rfl
@[simp] theorem State.pokeByte_i (s : State) (a : Nat) (b : Byte) : (s.pokeByte a b).i = s.i := rfl
@[simp] theorem State.pokeByte_pc (s : State) (a : Nat) (b : Byte) : (s.pokeByte a b).pc = s.pc := rfl
@[simp] theorem State.pokeByte_stack (s : State) (a : Nat) (b : Byte) : (s.pokeByte a b).stack = s.stack := rfl
@[simp] theorem State.pokeByte_sp (s : State) (a : Nat) (b : Byte) : (s.pokeByte a b).sp = s.sp := rfl
@[simp] theorem State.pokeByte_dt (s : State) (a : Nat) (b : Byte) : (s.pokeByte a b).dt = s.dt := rfl
@[simp] theorem State.pokeByte_st (s : State) (a : Nat) (b : Byte) : (s.pokeByte a b).st = s.st := rfl
@[simp] theorem State.pokeByte_disp (s : State) (a : Nat) (b : Byte) : (s.pokeByte a b).disp = s.disp := rfl
@[simp] theorem State.pokeByte_key (s : State) (a : Nat) (b : Byte) : (s.pokeByte a b).key = s.key := rfl
@[simp] theorem State.pokeByte_fault (s : State) (a : Nat) (b : Byte) : (s.pokeByte a b).fault = s.fault := rfl
@[simp] theorem State.pokeByte_opcode (s : State) (a : Nat) (b : Byte) : (s.pokeByte a b).opcode = s.opcode := rfl
@[simp] theorem State.pokeByte_params (s : State) (a : Nat) (b : Byte) : (s.pokeByte a b).params = s.params := rfl
@[simp] theorem State.pokeByte_draws (s : State) (a : Nat) (b : Byte) : (s.pokeByte a b).draws = s.draws := rfl
@[simp] theorem State.pokeByte_drawsTaken (s : State) (a : Nat) (b : Byte) : (s.pokeByte a b).drawsTaken = s.drawsTaken := rfl

/-! `State.storeByte` changes mem only. -/

@[simp] theorem State.storeByte_v (s : State) (a : Nat) (b : Byte) : (s.storeByte a b).v = s.v := by
  unfold State.storeByte; split <;> rfl
@[simp] theorem State.storeByte_i (s : State) (a : Nat) (b : Byte) : (s.storeByte a b).i = s.i := by
  unfold State.storeByte; split <;> rfl
@[simp] theorem State.storeByte_pc (s : State) (a : Nat) (b : Byte) : (s.storeByte a b).pc = s.pc := by
  unfold State.storeByte; split <;> rfl
@[simp] theorem State.storeByte_stack (s : State) (a : Nat) (b : Byte) : (s.storeByte a b).stack = s.stack := by
  unfold State.storeByte; split <;> rfl
@[simp] theorem State.storeByte_sp (s : State) (a : Nat) (b : Byte) : (s.storeByte a b).sp = s.sp := by
  unfold State.storeByte; split <;> rfl
@[simp] theorem State.storeByte_dt (s : State) (a : Nat) (b : Byte) : (s.storeByte a b).dt = s.dt := by
  unfold State.storeByte; split <;> rfl
@[simp] theorem State.storeByte_st (s : State) (a : Nat) (b : Byte) : (s.storeByte a b).st = s.st := by
  unfold State.storeByte; split <;> rfl
@[simp] theorem State.storeByte_disp (s : State) (a : Nat) (b : Byte) : (s.storeByte a b).disp = s.disp := by
  unfold State.storeByte; split <;> rfl
@[simp] theorem State.storeByte_key (s : State) (a : Nat) (b : Byte) : (s.storeByte a b).key = s.key := by
  unfold State.storeByte; split <;> rfl
@[simp] theorem State.storeByte_fault (s : State) (a : Nat) (b : Byte) : (s.storeByte a b).fault = s.fault := by
  unfold State.storeByte; split <;> rfl
@[simp] theorem State.storeByte_opcode (s : State) (a : Nat) (b : Byte) : (s.storeByte a b).opcode = s.opcode := by
  unfold State.storeByte; split <;> rfl
@[simp] theorem State.storeByte_params (s : State) (a : Nat) (b : Byte) : (s.storeByte a b).params = s.params := by
  unfold State.storeByte; split <;> rfl
@[simp] theorem State.storeByte_draws (s : State) (a : Nat) (b : Byte) : (s.storeByte a b).draws = s.draws := by
  unfold State.storeByte; split <;> rfl
@[simp] theorem State.storeByte_drawsTaken (s : State) (a : Nat) (b : Byte) : (s.storeByte a b).drawsTaken = s.drawsTaken := by
  unfold State.storeByte; split <;> rfl

/-! `State.storeBytes` changes mem only. -/

@[simp] theorem State.storeBytes_v (s : State) (a : Nat) (bs : List Byte) : (s.storeBytes a bs).v = s.v := by
  induction bs generalizing s a with
  | nil => rfl
  | cons b bs ih => simp [State.storeBytes, ih]
@[simp] theorem State.storeBytes_i (s : State) (a : Nat) (bs : List Byte) : (s.storeBytes a bs).i = s.i := by
  induction bs generalizing s a with
  | nil => rfl
  | cons b bs ih => simp [State.storeBytes, ih]
@[simp] theorem State.storeBytes_pc (s : State) (a : Nat) (bs : List Byte) : (s.storeBytes a bs).pc = s.pc := by
  induction bs generalizing s a with
  | nil => rfl
  | cons b bs ih => simp [State.storeBytes, ih]
@[simp] theorem State.storeBytes_stack (s : State) (a : Nat) (bs : List Byte) : (s.storeBytes a bs).stack = s.stack := by
  induction bs generalizing s a with
  | nil => rfl
  | cons b bs ih => simp [State.storeBytes, ih]
@[simp] theorem State.storeBytes_sp (s : State) (a : Nat) (bs : List Byte) : (s.storeBytes a bs).sp = s.sp := by
  induction bs generalizing s a with
  | nil => rfl
  | cons b bs ih => simp [State.storeBytes, ih]
@[simp] theorem State.storeBytes_dt (s : State) (a : Nat) (bs : List Byte) : (s.storeBytes a bs).dt = s.dt := by
  induction bs generalizing s a with
  | nil => rfl
  | cons b bs ih => simp [State.storeBytes, ih]
@[simp] theorem State.storeBytes_st (s : State) (a : Nat) (bs : List Byte) : (s.storeBytes a bs).st = s.st := by
  induction bs generalizing s a with
  | nil => rfl
  | cons b bs ih => simp [State.storeBytes, ih]
@[simp] theorem State.storeBytes_disp (s : State) (a : Nat) (bs : List Byte) : (s.storeBytes a bs).disp = s.disp := by
  induction bs generalizing s a with
  | nil => rfl
  | cons b bs ih => simp [State.storeBytes, ih]
@[simp] theorem State.storeBytes_key (s : State) (a : Nat) (bs : List Byte) : (s.storeBytes a bs).key = s.key := by
  induction bs generalizing s a with
  | nil => rfl
  | cons b bs ih => simp [State.storeBytes, ih]
@[simp] theorem State.storeBytes_fault (s : State) (a : Nat) (bs : List Byte) : (s.storeBytes a bs).fault = s.fault := by
  induction bs generalizing s a with
  | nil => rfl
  | cons b bs ih => simp [State.storeBytes, ih]
@[simp] theorem State.storeBytes_opcode (s : State) (a : Nat) (bs : List Byte) : (s.storeBytes a bs).opcode = s.opcode := by
  induction bs generalizing s a with
  | nil => rfl
  | cons b bs ih => simp [State.storeBytes, ih]
@[simp] theorem State.storeBytes_params (s : State) (a : Nat) (bs : List Byte) : (s.storeBytes a bs).params = s.params := by
  induction bs generalizing s a with
  | nil => rfl
  | cons b bs ih => simp [State.storeBytes, ih]
@[simp] theorem State.storeBytes_draws (s : State) (a : Nat) (bs : List Byte) : (s.storeBytes a bs).draws = s.draws := by
  induction bs generalizing s a with
  | nil => rfl
  | cons b bs ih => simp [State.storeBytes, ih]
@[simp] theorem State.storeBytes_drawsTaken (s : State) (a : Nat) (bs : List Byte) : (s.storeBytes a bs).drawsTaken = s.drawsTaken := by
  induction bs generalizing s a with
  | nil => rfl
  | cons b bs ih => simp [State.storeBytes, ih]

/-! `State.pokeBytes` changes mem only. -/

@[simp] theorem State.pokeBytes_v (s : State) (a : Nat) (bs : List Byte) : (s.pokeBytes a bs).v = s.v := by
  induction bs generalizing s a with
  | nil => rfl
  | cons b bs ih => simp [State.pokeBytes, ih]
@[simp] theorem State.pokeBytes_i (s : State) (a : Nat) (bs : List Byte) : (s.pokeBytes a bs).i = s.i := by
  induction bs generalizing s a with
  | nil => rfl
  | cons b bs ih => simp [State.pokeBytes, ih]
@[simp] theorem State.pokeBytes_pc (s : State) (a : Nat) (bs : List Byte) : (s.pokeBytes a bs).pc = s.pc := by
  induction bs generalizing s a with
  | nil => rfl
  | cons b bs ih => simp [State.pokeBytes, ih]
@[simp] theorem State.pokeBytes_stack (s : State) (a : Nat) (bs : List Byte) : (s.pokeBytes a bs).stack = s.stack := by
  induction bs generalizing s a with
  | nil => rfl
  | cons b bs ih => simp [State.pokeBytes, ih]
@[simp] theorem State.pokeBytes_sp (s : State) (a : Nat) (bs : List Byte) : (s.pokeBytes a bs).sp = s.sp := by
  induction bs generalizing s a with
  | nil => rfl
  | cons b bs ih => simp [State.pokeBytes, ih]
@[simp] theorem State.pokeBytes_dt (s : State) (a : Nat) (bs : List Byte) : (s.pokeBytes a bs).dt = s.dt := by
  induction bs generalizing s a with
  | nil => rfl
  | cons b bs ih => simp [State.pokeBytes, ih]
@[simp] theorem State.pokeBytes_st (s : State) (a : Nat) (bs : List Byte) : (s.pokeBytes a bs).st = s.st := by
  induction bs generalizing s a with
  | nil => rfl
  | cons b bs ih => simp [State.pokeBytes, ih]
@[simp] theorem State.pokeBytes_disp (s : State) (a : Nat) (bs : List Byte) : (s.pokeBytes a bs).disp = s.disp := by
  induction bs generalizing s a with
  | nil => rfl
  | cons b bs ih => simp [State.pokeBytes, ih]
@[simp] theorem State.pokeBytes_key (s : State) (a : Nat) (bs : List Byte) : (s.pokeBytes a bs).key = s.key := by
  induction bs generalizing s a with
  | nil => rfl
  | cons b bs ih => simp [State.pokeBytes, ih]
@[simp] theorem State.pokeBytes_fault (s : State) (a : Nat) (bs : List Byte) : (s.pokeBytes a bs).fault = s.fault := by
  induction bs generalizing s a with
  | nil => rfl
  | cons b bs ih => simp [State.pokeBytes, ih]
@[simp] theorem State.pokeBytes_opcode (s : State) (a : Nat) (bs : List Byte) : (s.pokeBytes a bs).opcode = s.opcode := by
  induction bs generalizing s a with
  | nil => rfl
  | cons b bs ih => simp [State.pokeBytes, ih]
@[simp] theorem State.pokeBytes_params (s : State) (a : Nat) (bs : List Byte) : (s.pokeBytes a bs).params = s.params := by
  induction bs generalizing s a with
  | nil => rfl
  | cons b bs ih => simp [State.pokeBytes, ih]
@[simp] theorem State.pokeBytes_draws (s : State) (a : Nat) (bs : List Byte) : (s.pokeBytes a bs).draws = s.draws := by
  induction bs generalizing s a with
  | nil => rfl
  | cons b bs ih => simp [State.pokeBytes, ih]
@[simp] theorem State.pokeBytes_drawsTaken (s : State) (a : Nat) (bs : List Byte) : (s.pokeBytes a bs).drawsTaken = s.drawsTaken := by
  induction bs generalizing s a with
  | nil => rfl
  | cons b bs ih => simp [State.pokeBytes, ih]

/-! `State.push` changes stack and sp only. -/

@[simp] theorem State.push_mem (s : State) (w : Word) : (s.push w).mem = s.mem := rfl
@[simp] theorem State.push_v (s : State) (w : Word) : (s.push w).v = s.v := rfl
@[simp] theorem State.push_i (s : State) (w : Word) : (s.push w).i = s.i := rfl
@[simp] theorem State.push_pc (s : State) (w : Word) : (s.push w).pc = s.pc := rfl
@[simp] theorem State.push_dt (s : State) (w : Word) : (s.push w).dt = s.dt := rfl
@[simp] theorem State.push_st (s : State) (w : Word) : (s.push w).st = s.st := rfl
@[simp] theorem State.push_disp (s : State) (w : Word) : (s.push w).disp = s.disp := rfl
@[simp] theorem State.push_key (s : State) (w : Word) : (s.push w).key = s.key := rfl
@[simp] theorem State.push_fault (s : State) (w : Word) : (s.push w).fault = s.fault := rfl
@[simp] theorem State.push_opcode (s : State) (w : Word) : (s.push w).opcode = s.opcode := rfl
@[simp] theorem State.push_params (s : State) (w : Word) : (s.push w).params = s.params := rfl
@[simp] theorem State.push_draws (s : State) (w : Word) : (s.push w).draws = s.draws := rfl
@[simp] theorem State.push_drawsTaken (s : State) (w : Word) : (s.push w).drawsTaken = s.drawsTaken := rfl

/-! `State.pop` changes sp only. -/

@[simp] theorem State.pop_mem (s : State) : s.pop.mem = s.mem := rfl
@[simp] theorem State.pop_v (s : State) : s.pop.v = s.v := rfl
@[simp] theorem State.pop_i (s : State) : s.pop.i = s.i := rfl
@[simp] theorem State.pop_pc (s : State) : s.pop.pc = s.pc := rfl
@[simp] theorem State.pop_stack (s : State) : s.pop.stack = s.stack := rfl
@[simp] theorem State.pop_dt (s : State) : s.pop.dt = s.dt := rfl
@[simp] theorem State.pop_st (s : State) : s.pop.st = s.st := rfl
@[simp] theorem State.pop_disp (s : State) : s.pop.disp = s.disp := rfl
@[simp] theorem State.pop_key (s : State) : s.pop.key = s.key := rfl
@[simp] theorem State.pop_fault (s : State) : s.pop.fault = s.fault := rfl
@[simp] theorem State.pop_opcode (s : State) : s.pop.opcode = s.opcode := rfl
@[simp] theorem State.pop_params (s : State) : s.pop.params = s.params := rfl
@[simp] theorem State.pop_draws (s : State) : s.pop.draws = s.draws := rfl
@[simp] theorem State.pop_drawsTaken (s : State) : s.pop.drawsTaken = s.drawsTaken := rfl

/-! `State.takeDraw` changes draws and drawsTaken only. -/

@[simp] theorem State.takeDraw_mem (s : State) : s.takeDraw.mem = s.mem := rfl
@[simp] theorem State.takeDraw_v (s : State) : s.takeDraw.v = s.v := rfl
@[simp] theorem State.takeDraw_i (s : State) : s.takeDraw.i = s.i := rfl
@[simp] theorem State.takeDraw_pc (s : State) : s.takeDraw.pc = s.pc := rfl
@[simp] theorem State.takeDraw_stack (s : State) : s.takeDraw.stack = s.stack := rfl
@[simp] theorem State.takeDraw_sp (s : State) : s.takeDraw.sp = s.sp := rfl
@[simp] theorem State.takeDraw_dt (s : State) : s.takeDraw.dt = s.dt := rfl
@[simp] theorem State.takeDraw_st (s : State) : s.takeDraw.st = s.st := rfl
@[simp] theorem State.takeDraw_disp (s : State) : s.takeDraw.disp = s.disp := rfl
@[simp] theorem State.takeDraw_key (s : State) : s.takeDraw.key = s.key := rfl
@[simp] theorem State.takeDraw_fault (s : State) : s.takeDraw.fault = s.fault := rfl
@[simp] theorem State.takeDraw_opcode (s : State) : s.takeDraw.opcode = s.opcode := rfl
@[simp] theorem State.takeDraw_params (s : State) : s.takeDraw.params = s.params := rfl

/-! `State.loadRegs` changes v only. -/

@[simp] theorem State.loadRegs_mem (s : State) (a : Nat) (x : RegIx) : (s.loadRegs a x).mem = s.mem := rfl
@[simp] theorem State.loadRegs_i (s : State) (a : Nat) (x : RegIx) : (s.loadRegs a x).i = s.i := rfl
@[simp] theorem State.loadRegs_pc (s : State) (a : Nat) (x : RegIx) : (s.loadRegs a x).pc = s.pc := rfl
@[simp] theorem State.loadRegs_stack (s : State) (a : Nat) (x : RegIx) : (s.loadRegs a x).stack = s.stack := rfl
@[simp] theorem State.loadRegs_sp (s : State) (a : Nat) (x : RegIx) : (s.loadRegs a x).sp = s.sp := rfl
@[simp] theorem State.loadRegs_dt (s : State) (a : Nat) (x : RegIx) : (s.loadRegs a x).dt = s.dt := rfl
@[simp] theorem State.loadRegs_st (s : State) (a : Nat) (x : RegIx) : (s.loadRegs a x).st = s.st := rfl
@[simp] theorem State.loadRegs_disp (s : State) (a : Nat) (x : RegIx) : (s.loadRegs a x).disp = s.disp := rfl
@[simp] theorem State.loadRegs_key (s : State) (a : Nat) (x : RegIx) : (s.loadRegs a x).key = s.key := rfl
@[simp] theorem State.loadRegs_fault (s : State) (a : Nat) (x : RegIx) : (s.loadRegs a x).fault = s.fault := rfl
@[simp] theorem State.loadRegs_opcode (s : State) (a : Nat) (x : RegIx) : (s.loadRegs a x).opcode = s.opcode := rfl
@[simp] theorem State.loadRegs_params (s : State) (a : Nat) (x : RegIx) : (s.loadRegs a x).params = s.params := rfl
@[simp] theorem State.loadRegs_draws (s : State) (a : Nat) (x : RegIx) : (s.loadRegs a x).draws = s.draws := rfl
@[simp] theorem State.loadRegs_drawsTaken (s : State) (a : Nat) (x : RegIx) : (s.loadRegs a x).drawsTaken = s.drawsTaken := rfl

/-! `State.flagThenResult` changes v only. -/

@[simp] theorem State.flagThenResult_mem (s : State) (c : Bool) (x : RegIx) (g : State → Byte) : (s.flagThenResult c x g).mem = s.mem := by
  unfold State.flagThenResult; cases s.params.vfAlias <;> rfl
@[simp] theorem State.flagThenResult_i (s : State) (c : Bool) (x : RegIx) (g : State → Byte) : (s.flagThenResult c x g).i = s.i := by
  unfold State.flagThenResult; cases s.params.vfAlias <;> rfl
@[simp] theorem State.flagThenResult_pc (s : State) (c : Bool) (x : RegIx) (g : State → Byte) : (s.flagThenResult c x g).pc = s.pc := by
  unfold State.flagThenResult; cases s.params.vfAlias <;> rfl
@[simp] theorem State.flagThenResult_stack (s : State) (c : Bool) (x : RegIx) (g : State → Byte) : (s.flagThenResult c x g).stack = s.stack := by
  unfold State.flagThenResult; cases s.params.vfAlias <;> rfl
@[simp] theorem State.flagThenResult_sp (s : State) (c : Bool) (x : RegIx) (g : State → Byte) : (s.flagThenResult c x g).sp = s.sp := by
  unfold State.flagThenResult; cases s.params.vfAlias <;> rfl
@[simp] theorem State.flagThenResult_dt (s : State) (c : Bool) (x : RegIx) (g : State → Byte) : (s.flagThenResult c x g).dt = s.dt := by
  unfold State.flagThenResult; cases s.params.vfAlias <;> rfl
@[simp] theorem State.flagThenResult_st (s : State) (c : Bool) (x : RegIx) (g : State → Byte) : (s.flagThenResult c x g).st = s.st := by
  unfold State.flagThenResult; cases s.params.vfAlias <;> rfl
@[simp] theorem State.flagThenResult_disp (s : State) (c : Bool) (x : RegIx) (g : State → Byte) : (s.flagThenResult c x g).disp = s.disp := by
  unfold State.flagThenResult; cases s.params.vfAlias <;> rfl
@[simp] theorem State.flagThenResult_key (s : State) (c : Bool) (x : RegIx) (g : State → Byte) : (s.flagThenResult c x g).key = s.key := by
  unfold State.flagThenResult; cases s.params.vfAlias <;> rfl
@[simp] theorem State.flagThenResult_fault (s : State) (c : Bool) (x : RegIx) (g : State → Byte) : (s.flagThenResult c x g).fault = s.fault := by
  unfold State.flagThenResult; cases s.params.vfAlias <;> rfl
@[simp] theorem State.flagThenResult_opcode (s : State) (c : Bool) (x : RegIx) (g : State → Byte) : (s.flagThenResult c x g).opcode = s.opcode := by
  unfold State.flagThenResult; cases s.params.vfAlias <;> rfl
@[simp] theorem State.flagThenResult_params (s : State) (c : Bool) (x : RegIx) (g : State → Byte) : (s.flagThenResult c x g).params = s.params := by
  unfold State.flagThenResult; cases s.params.vfAlias <;> rfl
@[simp] theorem State.flagThenResult_draws (s : State) (c : Bool) (x : RegIx) (g : State → Byte) : (s.flagThenResult c x g).draws = s.draws := by
  unfold State.flagThenResult; cases s.params.vfAlias <;> rfl
@[simp] theorem State.flagThenResult_drawsTaken (s : State) (c : Bool) (x : RegIx) (g : State → Byte) : (s.flagThenResult c x g).drawsTaken = s.drawsTaken := by
  unfold State.flagThenResult; cases s.params.vfAlias <;> rfl

/-! `State.afterDraw` changes v and disp only. -/

@[simp] theorem State.afterDraw_mem (s : State) (x y : RegIx) (n : Nat) : (s.afterDraw x y n).mem = s.mem := by
  unfold State.afterDraw; simp only []; split <;> rfl
@[simp] theorem State.afterDraw_i (s : State) (x y : RegIx) (n : Nat) : (s.afterDraw x y n).i = s.i := by
  unfold State.afterDraw; simp only []; split <;> rfl
@[simp] theorem State.afterDraw_pc (s : State) (x y : RegIx) (n : Nat) : (s.afterDraw x y n).pc = s.pc := by
  unfold State.afterDraw; simp only []; split <;> rfl
@[simp] theorem State.afterDraw_stack (s : State) (x y : RegIx) (n : Nat) : (s.afterDraw x y n).stack = s.stack := by
  unfold State.afterDraw; simp only []; split <;> rfl
@[simp] theorem State.afterDraw_sp (s : State) (x y : RegIx) (n : Nat) : (s.afterDraw x y n).sp = s.sp := by
  unfold State.afterDraw; simp only []; split <;> rfl
@[simp] theorem State.afterDraw_dt (s : State) (x y : RegIx) (n : Nat) : (s.afterDraw x y n).dt = s.dt := by
  unfold State.afterDraw; simp only []; split <;> rfl
@[simp] theorem State.afterDraw_st (s : State) (x y : RegIx) (n : Nat) : (s.afterDraw x y n).st = s.st := by
  unfold State.afterDraw; simp only []; split <;> rfl
@[simp] theorem State.afterDraw_key (s : State) (x y : RegIx) (n : Nat) : (s.afterDraw x y n).key = s.key := by
  unfold State.afterDraw; simp only []; split <;> rfl
@[simp] theorem State.afterDraw_fault (s : State) (x y : RegIx) (n : Nat) : (s.afterDraw x y n).fault = s.fault := by
  unfold State.afterDraw; simp only []; split <;> rfl
@[simp] theorem State.afterDraw_opcode (s : State) (x y : RegIx) (n : Nat) : (s.afterDraw x y n).opcode = s.opcode := by
  unfold State.afterDraw; simp only []; split <;> rfl
@[simp] theorem State.afterDraw_params (s : State) (x y : RegIx) (n : Nat) : (s.afterDraw x y n).params = s.params := by
  unfold State.afterDraw; simp only []; split <;> rfl
@[simp] theorem State.afterDraw_draws (s : State) (x y : RegIx) (n : Nat) : (s.afterDraw x y n).draws = s.draws := by
  unfold State.afterDraw; simp only []; split <;> rfl
@[simp] theorem State.afterDraw_drawsTaken (s : State) (x y : RegIx) (n : Nat) : (s.afterDraw x y n).drawsTaken = s.drawsTaken := by
  unfold State.afterDraw; simp only []; split <;> rfl

/-! `State.tick` changes dt and st only. -/

@[simp] theorem State.tick_mem (s : State) : s.tick.mem = s.mem := rfl
@[simp] theorem State.tick_v (s : State) : s.tick.v = s.v := rfl
@[simp] theorem State.tick_i (s : State) : s.tick.i = s.i := rfl
@[simp] theorem State.tick_pc (s : State) : s.tick.pc = s.pc := rfl
@[simp] theorem State.tick_stack (s : State) : s.tick.stack = s.stack := rfl
@[simp] theorem State.tick_sp (s : State) : s.tick.sp = s.sp := rfl
@[simp] theorem State.tick_disp (s : State) : s.tick.disp = s.disp := rfl
@[simp] theorem State.tick_key (s : State) : s.tick.key = s.key := rfl
@[simp] theorem State.tick_fault (s : State) : s.tick.fault = s.fault := rfl
@[simp] theorem State.tick_opcode (s : State) : s.tick.opcode = s.opcode := rfl
@[simp] theorem State.tick_params (s : State) : s.tick.params = s.params := rfl
@[simp] theorem State.tick_draws (s : State) : s.tick.draws = s.draws := rfl
@[simp] theorem State.tick_drawsTaken (s : State) : s.tick.drawsTaken = s.drawsTaken := rfl

/-! The fields an update sets. -/

@[simp] theorem State.writeI_i (s : State) (w : Word) : (s.writeI w).i = w := rfl
@[simp] theorem State.push_sp (s : State) (w : Word) : (s.push w).sp = s.sp + 1 := rfl
@[simp] theorem State.pop_sp (s : State) : s.pop.sp = s.sp - 1 := rfl
@[simp] theorem State.takeDraw_draws (s : State) : s.takeDraw.draws = s.draws.tail := rfl
@[simp] theorem State.takeDraw_drawsTaken (s : State) : s.takeDraw.drawsTaken = s.drawsTaken + 1 := rfl
@[simp] theorem State.tick_dt (s : State) : s.tick.dt = tickByte s.dt := rfl
@[simp] theorem State.tick_st (s : State) : s.tick.st = tickByte s.st := rfl
@[simp] theorem State.latchOpcode_opcode (s : State) : (latchOpcode s).opcode = fetchWord s := rfl

end Sys2Proof.Machine
end

