-- ==== Sys2Proof/Laws/Ops.lean ====
section
/-!
SUPPORT. One lemma per shared operation, saying what it does: registers, memory bytes, the stack, the
display, the draw, the tick and the ends of an instruction.
-/

namespace Sys2Proof.Machine

/-! Registers. -/

theorem State.readV_writeV (s : State) (x r : RegIx) (b : Byte) :
    (s.writeV x b).readV r = if r = x then b else s.readV r := by
  simp only [State.readV, State.writeV, Fin.getElem_fin, Vector.getElem_set, Fin.ext_iff, eq_comm]

@[simp] theorem State.readV_writeV_same (s : State) (x : RegIx) (b : Byte) :
    (s.writeV x b).readV x = b := by simp [State.readV_writeV]

@[simp] theorem State.readV_writeV_ne {x r : RegIx} (h : r ≠ x) (s : State) (b : Byte) :
    (s.writeV x b).readV r = s.readV r := by simp [State.readV_writeV, h]

theorem State.readV_writeFlag (s : State) (r : RegIx) (c : Bool) :
    (s.writeFlag c).readV r = if r = 15 then bool2bit c else s.readV r :=
  s.readV_writeV Config.flagReg r (bool2bit c)

/-- Reading a register depends on the register file only. -/
theorem State.readV_congr {s t : State} (h : t.v = s.v) (r : RegIx) : t.readV r = s.readV r := by
  simp [State.readV, h]

theorem State.readV_loadRegs (s : State) (base : Nat) (x r : RegIx) :
    (s.loadRegs base x).readV r = if r ≤ x then s.readByte (base + r.val) else s.readV r := by
  simp [State.readV, State.loadRegs]

/-- R93 in one place: V[x] is the result computed from the registers the setting names, and VF is the
flag unless x = 15. -/
theorem State.readV_flagThenResult (s : State) (c : Bool) (x r : RegIx) (g : State → Byte) :
    (s.flagThenResult c x g).readV r =
      if r = x then g (if s.params.vfAlias = .sequential then s.writeFlag c else s)
      else if r = 15 then bool2bit c else s.readV r := by
  unfold State.flagThenResult
  cases s.params.vfAlias <;> simp [State.readV_writeV, State.readV_writeFlag]

/-! Memory bytes. -/

theorem State.readByte_congr {s t : State} (hm : t.mem = s.mem) (hp : t.params.font = s.params.font)
    (a : Nat) : t.readByte a = s.readByte a := by
  simp [State.readByte, hm, hp]

theorem State.readByte_pokeByte (s : State) (a a' : Nat) (b : Byte) :
    (s.pokeByte a b).readByte a' = if a' = a then b else s.readByte a' :=
  Memory.read_write s.params.font s.mem a a' b

theorem State.readByte_storeByte (s : State) (a a' : Nat) (b : Byte) :
    (s.storeByte a b).readByte a' =
      if a' = a ∧ storeDropped s.params.fontWrite a = false then b else s.readByte a' := by
  unfold State.storeByte
  cases storeDropped s.params.fontWrite a <;> simp [State.readByte_pokeByte]

/-- Storing a run of bytes: each byte that is not dropped stands at its address, and every other address
reads as before (R47, R50). -/
theorem State.readByte_storeBytes (s : State) (base : Nat) (bs : List Byte) (a : Nat) :
    (s.storeBytes base bs).readByte a =
      if base ≤ a ∧ a < base + bs.length ∧ storeDropped s.params.fontWrite a = false
      then bs.getD (a - base) 0 else s.readByte a := by
  induction bs generalizing s base with
  | nil => simp [State.storeBytes]; omega
  | cons b bs ih =>
    rw [State.storeBytes, ih, State.readByte_storeByte]
    simp only [State.storeByte_params, List.length_cons]
    rcases Nat.lt_trichotomy a base with h | rfl | h
    · rw [if_neg (by omega), if_neg (by omega), if_neg (by omega)]
    · rw [if_neg (by omega)]
      cases storeDropped s.params.fontWrite a <;> simp
    · have hs : a - base = (a - (base + 1)) + 1 := by omega
      rw [hs, List.getD_cons_succ, if_neg (c := a = base ∧ _) (fun h' => by omega)]
      exact if_congr (and_congr (by omega) (and_congr (by omega) Iff.rfl)) rfl rfl

theorem State.readByte_pokeBytes (s : State) (base : Nat) (bs : List Byte) (a : Nat) :
    (s.pokeBytes base bs).readByte a =
      if base ≤ a ∧ a < base + bs.length then bs.getD (a - base) 0 else s.readByte a := by
  induction bs generalizing s base with
  | nil => rw [State.pokeBytes, if_neg (by simp)]
  | cons b bs ih =>
    rw [State.pokeBytes, ih, State.readByte_pokeByte]
    simp only [List.length_cons]
    rcases Nat.lt_trichotomy a base with h | rfl | h
    · rw [if_neg (by omega), if_neg (by omega), if_neg (by omega)]
    · rw [if_neg (by omega)]; simp
    · have hs : a - base = (a - (base + 1)) + 1 := by omega
      rw [hs, List.getD_cons_succ, if_neg (c := a = base) (by omega)]
      exact if_congr (by omega) rfl rfl

theorem State.pokeByte_wf {s : State} (h : Memory.wf s.params.font s.mem = true) {a : Nat}
    (ha : a < Config.memSize) (b : Byte) : Memory.wf s.params.font (s.pokeByte a b).mem = true :=
  Memory.write_wf h ha b

theorem State.pokeBytes_wf {s : State} (h : Memory.wf s.params.font s.mem = true) {base : Nat}
    {bs : List Byte} (hb : bs.length = 0 ∨ base + bs.length ≤ Config.memSize) :
    Memory.wf s.params.font (s.pokeBytes base bs).mem = true := by
  induction bs generalizing s base with
  | nil => exact h
  | cons b bs ih =>
    simp only [List.length_cons] at hb
    exact ih (s := s.pokeByte base b) (State.pokeByte_wf h (by omega) b) (by omega)

theorem State.storeBytes_wf {s : State} (h : Memory.wf s.params.font s.mem = true) {base : Nat}
    {bs : List Byte} (hb : bs.length = 0 ∨ base + bs.length ≤ Config.memSize) :
    Memory.wf s.params.font (s.storeBytes base bs).mem = true := by
  induction bs generalizing s base with
  | nil => exact h
  | cons b bs ih =>
    simp only [List.length_cons] at hb
    have h1 : Memory.wf s.params.font (s.storeByte base b).mem = true := by
      unfold State.storeByte
      split
      · exact h
      · exact State.pokeByte_wf h (by omega) b
    have h2 := ih (s := s.storeByte base b) (base := base + 1) (by simpa using h1) (by omega)
    simpa [State.storeBytes] using h2

@[simp] theorem State.regsUpTo_length (s : State) (x : RegIx) : (s.regsUpTo x).length = x.val + 1 := by
  simp [State.regsUpTo]

theorem State.regsUpTo_getD (s : State) (x r : RegIx) (h : r ≤ x) :
    (s.regsUpTo x).getD r.val 0 = s.readV r := by
  have h' : r.val < x.val + 1 := Nat.lt_succ_of_le h
  simp [State.regsUpTo, State.readV, List.getD_eq_getElem?_getD, h']

@[simp] theorem bcdDigits_length (p : Byte) : (bcdDigits p).length = 3 := rfl

/-! The call stack. -/

theorem State.slot_congr {s t : State} (h : t.stack = s.stack) (j : Nat) : t.slot j = s.slot j := by
  simp [State.slot, h]

theorem State.slot_push (s : State) (w : Word) (j : Nat) :
    (s.push w).slot j = if j = s.sp ∧ s.sp < 16 then w else s.slot j := by
  unfold State.slot State.push
  by_cases hj : j < Config.stackDepth
  · simp only [hj, dif_pos, Vector.getElem_setIfInBounds]
    simp only [Config.stackDepth] at hj
    exact if_congr (by omega) rfl rfl
  · simp only [hj, dif_neg, not_false_eq_true]
    simp only [Config.stackDepth] at hj
    rw [if_neg (by omega)]

/-! Key latches. -/

theorem State.pressed_congr {s t : State} (h : t.key = s.key) (k : Nat) : t.pressed k = s.pressed k := by
  simp [State.pressed, h]

/-- The key Fx0A finds is pressed, and no lower one is (R123). -/
theorem State.lowestKey_eq_some {s : State} {k : Nat} :
    s.lowestKey = some k ↔ s.pressed k = true ∧ ∀ j, j < k → s.pressed j = false := by
  unfold State.lowestKey
  rw [List.find?_range_eq_some]
  constructor
  · rintro ⟨h1, _, h2⟩; exact ⟨h1, by simpa using h2⟩
  · rintro ⟨h1, h2⟩
    refine ⟨h1, ?_, by simpa using h2⟩
    by_contra h
    simp only [List.mem_range] at h
    simp [State.pressed, h] at h1

theorem State.lowestKey_eq_none {s : State} : s.lowestKey = none ↔ ∀ k, s.pressed k = false := by
  unfold State.lowestKey
  simp only [List.find?_eq_none, List.mem_range, Bool.not_eq_true]
  refine ⟨fun h k => ?_, fun h k _ => h k⟩
  by_cases hk : k < Config.numKeys
  · exact h k hk
  · simp [State.pressed, hk]

/-! The display. -/

theorem Display.cell_toggle (d : Display) (r c r' c' : Nat) (hr : r' < 32) (hc : c' < 64) :
    (Display.toggle d r c).cell r' c' =
      (d.cell r' c' != (decide (r' = r % 32) && decide (c' = c % 64))) := by
  unfold Display.toggle Display.cell
  simp only [Config.displayH, Config.displayW, hr, dif_pos, Vector.getElem_set]
  split
  · rename_i h
    subst h
    simp only [BitVec.getLsbD_xor, BitVec.getLsbD_shiftLeft, BitVec.getLsbD_one, hc, decide_true,
      Bool.true_and]
    congr 1
    by_cases h : c' < c % 64
    · have : c' ≠ c % 64 := by omega
      simp [h, this]
    · simp only [h, decide_false, Bool.not_false, Bool.true_and]
      exact decide_eq_decide.mpr (by omega)
  · rename_i h
    simp [Ne.symm h]

/-! The ends of an instruction. -/

@[simp] theorem finish_next {o : NextPc} {s t : State} :
    finish o s = .next t ↔ { s with pc := o.target s.pc } = t := by simp [finish]

@[simp] theorem raise_next {f : Fault} {s t : State} :
    raise f s = .next t ↔ { s with fault := some f } = t := by simp [raise]

theorem afterCheck_next {bad : Option Nat} {s t : State} {go : Result} :
    afterCheck bad s go = .next t ↔
      (∃ a, bad = some a ∧ { s with fault := some (.addressOutOfRange a) } = t) ∨
      (bad = none ∧ go = .next t) := by
  cases bad <;> simp [afterCheck]

/-- A tick takes a timer down by 1, and leaves 0 at 0 (R79). -/
@[simp] theorem tickByte_toNat (b : Byte) : (tickByte b).toNat = b.toNat - 1 := by
  unfold tickByte
  split
  · next h => simp [h]
  · next h =>
    have : b.toNat ≠ 0 := fun h' => h (BitVec.eq_of_toNat_eq h')
    have := b.isLt
    have h1 : (1 : Byte).toNat = 1 := rfl
    rw [BitVec.toNat_sub, h1]; omega

@[simp] theorem bool2bit_toNat (c : Bool) : (bool2bit c).toNat = if c then 1 else 0 := by
  cases c <;> rfl

end Sys2Proof.Machine
end

