-- ==== Sys2Proof/Laws/Draw.lean ====
section
/-!
SUPPORT. What drawing a sprite does to a cell, and when it collides (spec/45_display_input.md R118, R119):
the rows of a sprite reach distinct rows mod 32 and its 8 columns distinct columns mod 64, so every cell is
toggled at most once.
-/

namespace Sys2Proof.Machine

/-- The columns 0..k-1 of one sprite byte (k ≤ 8): the cell at column offset `dc` of row `r` is XORed with
bit `7 - dc`. -/
theorem cell_drawByteCols (b : Byte) (r c k : Nat) (st : Display × Bool) (hk : k ≤ 8) {r' c' : Nat}
    (hr : r' < 32) (hc : c' < 64) :
    (drawByteCols b r c k st).1.cell r' c' =
      (st.1.cell r' c' != (decide (r' = r % 32) && (decide ((c' + 64 - c % 64) % 64 < k) &&
        b.getLsbD (7 - (c' + 64 - c % 64) % 64)))) := by
  induction k with
  | zero => simp [drawByteCols]
  | succ k ih =>
    have ih := ih (by omega)
    have hcol : c' = (c + k) % 64 ↔ (c' + 64 - c % 64) % 64 = k := by omega
    simp only [drawByteCols]
    generalize hdc : (c' + 64 - c % 64) % 64 = dc at *
    by_cases h : dc = k
    · subst h
      by_cases hb : b.getLsbD (7 - dc) = true
      · simp only [hb, if_true, drawPixel]
        rw [Display.cell_toggle _ _ _ _ _ hr hc, ih]
        simp [hcol.mpr rfl, hb]
      · simp [hb, ih]
    · have h1 : (dc < k + 1) ↔ dc < k := by omega
      have h2 : ¬ c' = (c + k) % 64 := fun h' => h (hcol.mp h')
      by_cases hb : b.getLsbD (7 - k) = true
      · simp only [hb, if_true, drawPixel]
        rw [Display.cell_toggle _ _ _ _ _ hr hc, ih]
        simp [h2, h1]
      · simp [hb, ih, h1]

/-- Those columns collide exactly where a 1 bit meets a cell that was on before. -/
theorem collide_drawByteCols (b : Byte) (r c k : Nat) (st : Display × Bool) (hk : k ≤ 8) :
    (drawByteCols b r c k st).2 = true ↔ st.2 = true ∨
      ∃ j, j < k ∧ b.getLsbD (7 - j) = true ∧ st.1.cell (r % 32) ((c + j) % 64) = true := by
  induction k with
  | zero => simp [drawByteCols]
  | succ k ih =>
    have ih := ih (by omega)
    have hcell := cell_drawByteCols b r c k st (by omega) (r' := r % 32) (c' := (c + k) % 64)
      (Nat.mod_lt _ (by decide)) (Nat.mod_lt _ (by decide))
    have hdc : ((c + k) % 64 + 64 - c % 64) % 64 = k := by omega
    simp only [hdc, Nat.lt_irrefl, decide_false, Bool.false_and, Bool.and_false, Bool.bne_false] at hcell
    simp only [drawByteCols]
    by_cases hb : b.getLsbD (7 - k) = true
    · simp only [hb, if_true, drawPixel, Config.displayH, Config.displayW, Bool.or_eq_true, ih, hcell]
      constructor
      · rintro ((h | ⟨j, hj, h⟩) | h)
        · exact .inl h
        · exact .inr ⟨j, by omega, h⟩
        · exact .inr ⟨k, by omega, hb, h⟩
      · rintro (h | ⟨j, hj, h⟩)
        · exact .inl (.inl h)
        · by_cases hjk : j = k
          · subst hjk; exact .inr h.2
          · exact .inl (.inr ⟨j, by omega, h⟩)
    · rw [if_neg hb, ih]
      refine or_congr Iff.rfl ⟨fun ⟨j, hj, h⟩ => ⟨j, by omega, h⟩, fun ⟨j, hj, h⟩ => ⟨j, ?_, h⟩⟩
      have : j ≠ k := fun e => hb (e ▸ h.1)
      omega

/-- A whole sprite of at most 32 rows: every cell is XORed with the sprite's bit on it. -/
theorem cell_drawRows (c : Nat) (bs : List Byte) (r : Nat) (st : Display × Bool) (hn : bs.length ≤ 32)
    {r' c' : Nat} (hr : r' < 32) (hc : c' < 64) :
    (drawRows c bs r st).1.cell r' c' =
      (st.1.cell r' c' != (decide ((r' + 32 - r % 32) % 32 < bs.length) &&
        (decide ((c' + 64 - c % 64) % 64 < 8) &&
          (bs.getD ((r' + 32 - r % 32) % 32) 0).getLsbD (7 - (c' + 64 - c % 64) % 64)))) := by
  induction bs generalizing r st with
  | nil => simp [drawRows]
  | cons b bs ih =>
    simp only [List.length_cons] at hn
    rw [drawRows, ih _ _ (by omega), cell_drawByteCols b r c 8 st (by omega) hr hc]
    have h0 : r' = r % 32 ↔ (r' + 32 - r % 32) % 32 = 0 := by omega
    have h1 : (r' + 32 - (r + 1) % 32) % 32 =
        if (r' + 32 - r % 32) % 32 = 0 then 31 else (r' + 32 - r % 32) % 32 - 1 := by split <;> omega
    rw [h1]
    generalize (r' + 32 - r % 32) % 32 = dr at *
    cases dr with
    | zero =>
      have : ¬ 31 < bs.length := by omega
      simp [h0, this]
    | succ dr => simp [h0]

/-- A whole sprite collides exactly where a 1 bit meets a cell that was on before the draw. -/
theorem collide_drawRows (c : Nat) (bs : List Byte) (r : Nat) (st : Display × Bool) (hn : bs.length ≤ 32) :
    (drawRows c bs r st).2 = true ↔ st.2 = true ∨
      ∃ k j, k < bs.length ∧ j < 8 ∧ (bs.getD k 0).getLsbD (7 - j) = true ∧
        st.1.cell ((r + k) % 32) ((c + j) % 64) = true := by
  induction bs generalizing r st with
  | nil => simp [drawRows]
  | cons b bs ih =>
    simp only [List.length_cons] at hn
    rw [drawRows, ih _ _ (by omega), collide_drawByteCols b r c 8 st (by omega)]
    have hcell : ∀ k j, k < bs.length → 
        (drawByteCols b r c 8 st).1.cell ((r + 1 + k) % 32) ((c + j) % 64) =
          st.1.cell ((r + 1 + k) % 32) ((c + j) % 64) := fun k j hk => by
      rw [cell_drawByteCols b r c 8 st (by omega) (Nat.mod_lt _ (by decide)) (Nat.mod_lt _ (by decide))]
      have : ¬ (r + 1 + k) % 32 = r % 32 := by omega
      simp [this]
    constructor
    · rintro ((h | ⟨j, hj, hb, h⟩) | ⟨k, j, hk, hj, hb, h⟩)
      · exact .inl h
      · exact .inr ⟨0, j, by simp, hj, by simpa using hb, by simpa using h⟩
      · refine .inr ⟨k + 1, j, by simpa using hk, hj, by simpa using hb, ?_⟩
        rw [hcell k j hk] at h
        rwa [show r + (k + 1) = r + 1 + k by omega]
    · rintro (h | ⟨k, j, hk, hj, hb, h⟩)
      · exact .inl (.inl h)
      · cases k with
        | zero => exact .inl (.inr ⟨j, hj, by simpa using hb, by simpa using h⟩)
        | succ k =>
          simp only [List.length_cons] at hk
          refine .inr ⟨k, j, by omega, hj, by simpa using hb, ?_⟩
          rw [hcell k j (by omega)]
          rwa [show r + (k + 1) = r + 1 + k by omega] at h

@[simp] theorem State.readBytes_length (s : State) (base n : Nat) : (s.readBytes base n).length = n := by
  simp [State.readBytes]

theorem State.readBytes_getD (s : State) (base n k : Nat) (h : k < n) :
    (s.readBytes base n).getD k 0 = s.readByte (base + k) := by
  simp [State.readBytes, List.getD_eq_getElem?_getD, h]

/-- The buffer Dxyn leaves (R119). -/
theorem State.cell_drawn (s : State) (x y : RegIx) (n : Nat) (hn : n ≤ 32) {r c : Nat} (hr : r < 32)
    (hc : c < 64) :
    (s.drawn x y n).1.cell r c =
      (s.disp.cell r c != spriteBit s (s.readV x).toNat (s.readV y).toNat n r c) := by
  unfold State.drawn
  rw [cell_drawRows _ _ _ _ (by simpa using hn) hr hc]
  simp only [State.readBytes_length, spriteBit, Config.displayH, Config.displayW]
  by_cases h : (r + 32 - (s.readV y).toNat % 32) % 32 < n
  · rw [State.readBytes_getD _ _ _ _ h]; simp [h]
  · simp [h]

/-- The collision Dxyn reports (R119). -/
theorem State.collide_drawn (s : State) (x y : RegIx) (n : Nat) (hn : n ≤ 32) :
    (s.drawn x y n).2 = true ↔ Collides s (s.readV x).toNat (s.readV y).toNat n := by
  unfold State.drawn
  rw [collide_drawRows _ _ _ _ (by simpa using hn)]
  simp only [State.readBytes_length, Bool.false_eq_true, false_or, Collides, spriteBit, Config.displayH,
    Config.displayW, Bool.and_eq_true, decide_eq_true_eq]
  constructor
  · rintro ⟨k, j, hk, hj, hb, h⟩
    rw [State.readBytes_getD _ _ _ _ hk] at hb
    refine ⟨_, _, Nat.mod_lt _ (by decide), Nat.mod_lt _ (by decide), ?_, h⟩
    have h1 : (((s.readV y).toNat + k) % 32 + 32 - (s.readV y).toNat % 32) % 32 = k := by omega
    have h2 : (((s.readV x).toNat + j) % 64 + 64 - (s.readV x).toNat % 64) % 64 = j := by omega
    rw [h1, h2]; exact ⟨⟨hk, hj⟩, hb⟩
  · rintro ⟨r, c, hr, hc, ⟨⟨hk, hj⟩, hb⟩, h⟩
    refine ⟨_, _, hk, hj, by rwa [State.readBytes_getD _ _ _ _ hk], ?_⟩
    have h1 : ((s.readV y).toNat + (r + 32 - (s.readV y).toNat % 32) % 32) % 32 = r := by omega
    have h2 : ((s.readV x).toNat + (c + 64 - (s.readV x).toNat % 64) % 64) % 64 = c := by omega
    rwa [h1, h2]

end Sys2Proof.Machine
end

