-- ==== Sys2Proof/Laws/Exec.lean ====
section
/-!
SUPPORT. What `exec` can do, said once: it always answers a next state, which either only records a fault
(R80, R126) or is framed by what the instruction touches (spec/10_state.md R16, R18, R20, R25, R29, R31;
spec/20_memory.md R43).
-/

namespace Sys2Proof.Machine

/-- What each instruction may write besides pc. -/
def touches : Instr → Touches
  | .cls => { display := true }
  | .ret | .call _ => { stack := true }
  | .jp _ | .seImm _ _ | .sneImm _ _ | .seReg _ _ | .sneReg _ _ | .jpV0 _ | .skp _ | .sknp _ => {}
  | .ldImm x _ | .addImm x _ | .ldVxDt x | .ldVxK x => { regs := [x] }
  | .ldReg x _ | .orReg x _ | .andReg x _ | .xorReg x _ => { regs := [x] }
  | .addReg x _ | .sub x _ | .shr x _ | .subn x _ | .shl x _ => { regs := [x, 15] }
  | .rnd x _ => { regs := [x], draws := true }
  | .drw _ _ _ => { regs := [15], display := true }
  | .ldDtVx _ => { delayTimer := true }
  | .ldStVx _ => { soundTimer := true }
  | .ldI _ | .addI _ | .ldF _ => { index := true }
  | .ldB _ | .ldMemVx _ => { memory := true }
  | .ldVxMem x => { regs := (List.finRange 16).filter (· ≤ x) }

/-! Frames of the shared operations. -/

theorem Frame.refl (w : Touches) (s : State) : Frame w s s :=
  ⟨fun _ _ => rfl, fun _ _ => rfl, fun _ => rfl, fun _ => ⟨rfl, rfl⟩, fun _ => rfl, fun _ => rfl,
    fun _ => rfl, fun _ => ⟨rfl, rfl⟩, rfl, rfl, rfl, rfl⟩

/-- A frame says nothing of pc. -/
theorem Frame.pc {w : Touches} {s t : State} (h : Frame w s t) (p : Word) : Frame w s { t with pc := p } :=
  ⟨h.regs, h.memory, h.index, h.stack, h.delayTimer, h.soundTimer, h.display, h.draws, h.key, h.fault,
    h.opcode, h.params⟩

/-- A state that differs in the register file only. -/
theorem Frame.ofRegs {w : Touches} {s t : State} (hr : ∀ r, r ∉ w.regs → t.readV r = s.readV r)
    (ht : ∃ v, t = { s with v := v }) : Frame w s t := by
  obtain ⟨v, rfl⟩ := ht
  exact ⟨hr, fun _ _ => rfl, fun _ => rfl, fun _ => ⟨rfl, rfl⟩, fun _ => rfl, fun _ => rfl, fun _ => rfl,
    fun _ => ⟨rfl, rfl⟩, rfl, rfl, rfl, rfl⟩

theorem frame_writeV (s : State) (x : RegIx) (b : Byte) : Frame { regs := [x] } s (s.writeV x b) :=
  .ofRegs (fun r h => State.readV_writeV_ne (by simpa using h) s b) ⟨_, rfl⟩

theorem frame_addReg (s : State) (x : RegIx) (b : Byte) (c : Bool) :
    Frame { regs := [x, 15] } s ((s.writeV x b).writeFlag c) :=
  .ofRegs (fun r h => by
    simp only [List.mem_cons, List.not_mem_nil, or_false, not_or] at h
    rw [State.readV_writeFlag, if_neg h.2, State.readV_writeV_ne h.1]) ⟨_, rfl⟩

theorem frame_flagThenResult (s : State) (c : Bool) (x : RegIx) (g : State → Byte) :
    Frame { regs := [x, 15] } s (s.flagThenResult c x g) :=
  .ofRegs (fun r h => by
    simp only [List.mem_cons, List.not_mem_nil, or_false, not_or] at h
    rw [State.readV_flagThenResult, if_neg h.1, if_neg h.2])
    (by unfold State.flagThenResult; cases s.params.vfAlias <;> exact ⟨_, rfl⟩)

theorem frame_loadRegs (s : State) (base : Nat) (x : RegIx) :
    Frame { regs := (List.finRange 16).filter (· ≤ x) } s (s.loadRegs base x) :=
  .ofRegs (fun r h => by
    rw [State.readV_loadRegs, if_neg]
    simpa using h) ⟨_, rfl⟩

theorem frame_takeDraw (s : State) (x : RegIx) (b : Byte) :
    Frame { regs := [x], draws := true } s (s.takeDraw.writeV x b) :=
  ⟨fun r h => State.readV_writeV_ne (by simpa using h) s.takeDraw b, fun _ _ => rfl, fun _ => rfl,
    fun _ => ⟨rfl, rfl⟩, fun _ => rfl, fun _ => rfl, fun _ => rfl, nofun, rfl, rfl, rfl, rfl⟩

theorem frame_writeI (s : State) (w : Word) : Frame { index := true } s (s.writeI w) :=
  ⟨fun _ _ => rfl, fun _ _ => rfl, nofun, fun _ => ⟨rfl, rfl⟩, fun _ => rfl, fun _ => rfl, fun _ => rfl,
    fun _ => ⟨rfl, rfl⟩, rfl, rfl, rfl, rfl⟩

theorem frame_stack (s : State) (st : Vector Word 16) (n : Nat) :
    Frame { stack := true } s { s with stack := st, sp := n } :=
  ⟨fun _ _ => rfl, fun _ _ => rfl, fun _ => rfl, nofun, fun _ => rfl, fun _ => rfl, fun _ => rfl,
    fun _ => ⟨rfl, rfl⟩, rfl, rfl, rfl, rfl⟩

theorem frame_dt (s : State) (b : Byte) : Frame { delayTimer := true } s { s with dt := b } :=
  ⟨fun _ _ => rfl, fun _ _ => rfl, fun _ => rfl, fun _ => ⟨rfl, rfl⟩, nofun, fun _ => rfl, fun _ => rfl,
    fun _ => ⟨rfl, rfl⟩, rfl, rfl, rfl, rfl⟩

theorem frame_st (s : State) (b : Byte) : Frame { soundTimer := true } s { s with st := b } :=
  ⟨fun _ _ => rfl, fun _ _ => rfl, fun _ => rfl, fun _ => ⟨rfl, rfl⟩, fun _ => rfl, nofun, fun _ => rfl,
    fun _ => ⟨rfl, rfl⟩, rfl, rfl, rfl, rfl⟩

theorem frame_disp (s : State) (d : Display) : Frame { display := true } s { s with disp := d } :=
  ⟨fun _ _ => rfl, fun _ _ => rfl, fun _ => rfl, fun _ => ⟨rfl, rfl⟩, fun _ => rfl, fun _ => rfl, nofun,
    fun _ => ⟨rfl, rfl⟩, rfl, rfl, rfl, rfl⟩

theorem State.readV_afterDraw (s : State) (x y r : RegIx) (n : Nat) :
    (s.afterDraw x y n).readV r = if (s.drawn x y n).2 = true ∧ r = 15 then 1 else s.readV r := by
  unfold State.afterDraw
  by_cases h : (s.drawn x y n).2 = true
  · simp only [h, if_true, true_and]; exact State.readV_writeFlag _ _ _
  · rw [if_neg h, if_neg (fun h' => h h'.1)]; rfl

@[simp] theorem State.afterDraw_disp (s : State) (x y : RegIx) (n : Nat) :
    (s.afterDraw x y n).disp = (s.drawn x y n).1 := by
  unfold State.afterDraw; simp only []; split <;> rfl

theorem frame_afterDraw (s : State) (x y : RegIx) (n : Nat) :
    Frame { regs := [15], display := true } s (s.afterDraw x y n) :=
  ⟨fun r h => by rw [State.readV_afterDraw, if_neg (fun h' => h (by simp [h'.2]))],
    fun _ a => State.readByte_congr (by simp) (by simp) a, fun _ => by simp, fun _ => by simp,
    fun _ => by simp, fun _ => by simp, nofun, fun _ => by simp, by simp, by simp, by simp, by simp⟩

theorem frame_storeBytes (s : State) (base : Nat) (bs : List Byte) :
    Frame { memory := true } s (s.storeBytes base bs) :=
  ⟨fun r _ => State.readV_congr (by simp) r, nofun, fun _ => by simp, fun _ => by simp,
    fun _ => by simp, fun _ => by simp, fun _ => by simp, fun _ => by simp, by simp, by simp, by simp, by simp⟩

/-! How a meaning ends: a next state that only records a fault, or one framed by what it touches. -/

/-- The two ways a meaning ends. -/
def Ends (w : Touches) (s : State) (r : Result) : Prop :=
  ∃ t, r = .next t ∧ ((∃ f, t = { s with fault := some f }) ∨ Frame w s t)

theorem ends_raise (w : Touches) (f : Fault) (s : State) : Ends w s (raise f s) :=
  ⟨_, rfl, .inl ⟨f, rfl⟩⟩

theorem ends_finish {w : Touches} {s u : State} (h : Frame w s u) (o : NextPc) : Ends w s (finish o u) :=
  ⟨_, rfl, .inr (h.pc _)⟩

theorem ends_afterCheck {w : Touches} {s : State} {go : Result} (bad : Option Nat) (h : Ends w s go) :
    Ends w s (afterCheck bad s go) := by
  cases bad with
  | none => exact h
  | some a => exact ends_raise w _ s

/-- Every meaning ends so, in every state. -/
theorem exec_ends (i : Instr) (s : State) : Ends (touches i) s (exec i s) := by
  cases i with
  | cls => exact ends_finish (frame_disp s _) _
  | ret =>
    simp only [exec, execRet]
    split
    · exact ends_raise _ _ s
    · exact ends_finish (frame_stack s s.stack _) _
  | call nnn =>
    simp only [exec, execCall]
    split
    · exact ends_raise _ _ s
    · exact ends_finish (frame_stack s _ _) _
  | jp nnn => exact ends_finish (.refl _ s) _
  | seImm x kk => exact ends_finish (.refl _ s) _
  | sneImm x kk => exact ends_finish (.refl _ s) _
  | seReg x y => exact ends_finish (.refl _ s) _
  | sneReg x y => exact ends_finish (.refl _ s) _
  | jpV0 nnn => exact ends_finish (.refl _ s) _
  | ldImm x kk => exact ends_finish (frame_writeV s x _) _
  | addImm x kk => exact ends_finish (frame_writeV s x _) _
  | ldReg x y => exact ends_finish (frame_writeV s x _) _
  | orReg x y => exact ends_finish (frame_writeV s x _) _
  | andReg x y => exact ends_finish (frame_writeV s x _) _
  | xorReg x y => exact ends_finish (frame_writeV s x _) _
  | addReg x y => exact ends_finish (frame_addReg s x _ _) _
  | sub x y => exact ends_finish (frame_flagThenResult s _ x _) _
  | shr x y => exact ends_finish (frame_flagThenResult s _ x _) _
  | subn x y => exact ends_finish (frame_flagThenResult s _ x _) _
  | shl x y => exact ends_finish (frame_flagThenResult s _ x _) _
  | ldI nnn => exact ends_finish (frame_writeI s _) _
  | addI x => exact ends_finish (frame_writeI s _) _
  | ldF x => exact ends_finish (frame_writeI s _) _
  | rnd x kk => exact ends_finish (frame_takeDraw s x _) _
  | drw x y n => exact ends_afterCheck _ (ends_finish (frame_afterDraw s x y n) _)
  | skp x =>
    simp only [exec, execSkp]
    split
    · exact ends_raise _ _ s
    · exact ends_finish (.refl _ s) _
  | sknp x =>
    simp only [exec, execSknp]
    split
    · exact ends_raise _ _ s
    · exact ends_finish (.refl _ s) _
  | ldVxDt x => exact ends_finish (frame_writeV s x _) _
  | ldVxK x =>
    simp only [exec, execLdVxK]
    split
    · exact ends_finish (frame_writeV s x _) _
    · exact ends_finish (.refl _ s) _
  | ldDtVx x => exact ends_finish (frame_dt s _) _
  | ldStVx x => exact ends_finish (frame_st s _) _
  | ldB x => exact ends_afterCheck _ (ends_finish (frame_storeBytes s _ _) _)
  | ldMemVx x => exact ends_afterCheck _ (ends_finish (frame_storeBytes s _ _) _)
  | ldVxMem x => exact ends_afterCheck _ (ends_finish (frame_loadRegs s _ x) _)

/-- `exec` never faults and never refuses: what a fault does is a next state (R126). -/
theorem exec_next (i : Instr) (s : State) : ∃ t, exec i s = .next t :=
  (exec_ends i s).imp fun _ h => h.1

/-- What `exec` can do. -/
theorem exec_cases {i : Instr} {s t : State} (h : exec i s = .next t) :
    (∃ f, t = { s with fault := some f }) ∨ Frame (touches i) s t := by
  obtain ⟨t', h', hc⟩ := exec_ends i s
  rw [h] at h'
  injection h' with h'
  rwa [h']

/-! The end of a step, and what a step can do. -/

theorem endStep_next {t : State} : endStep (.next t) = .next (if t.fault.isSome then t else t.tick) := rfl

/-- What a step of a machine that is not halted can do (R75): a fetch fault, or the instruction or the
undefined word on the state with the opcode register written, and then the end of the step. -/
theorem step_cases {s t : State} (hs : s.fault = none) (h : step s = .next t) :
    (∃ a, fetchFault s = some a ∧ t = { s with fault := some (.addressOutOfRange a) }) ∨
    (fetchFault s = none ∧ ∃ u, (match decodeWord (fetchWord s) with
        | some i => exec i (latchOpcode s)
        | none => execUndefined (latchOpcode s)) = .next u ∧
      t = if u.fault.isSome then u else u.tick) := by
  unfold step at h
  rw [hs] at h
  cases hf : fetchFault s with
  | some a =>
    simp only [hf, raise_next] at h
    exact .inl ⟨a, rfl, h.symm⟩
  | none =>
    refine .inr ⟨rfl, ?_⟩
    simp only [hf] at h
    cases hd : decodeWord (fetchWord s) with
    | none =>
      simp only [hd] at h
      exact ⟨_, rfl, (Host.Outcome.next.inj h).symm⟩
    | some i =>
      simp only [hd] at h
      obtain ⟨u, hu⟩ := exec_next i (latchOpcode s)
      rw [hu] at h
      exact ⟨u, hu, (Host.Outcome.next.inj h).symm⟩

/-- A halted machine has no next state (R127). -/
theorem step_halted {s : State} {f : Fault} (h : s.fault = some f) : step s = .fault f := by
  unfold step; rw [h]

theorem fetchFault_eq_none {s : State} : fetchFault s = none ↔ s.pc.toNat + 1 < 4096 := by
  unfold fetchFault; split <;> simp_all

end Sys2Proof.Machine
end

