-- ==== Sys2Proof/Laws/PerInstr.lean ====
section
/-!
SUPPORT. A law of the instruction as syntax, one lemma per constructor: the encoding of an instruction
matches its row of spec/opcode_table.json on every fixed bit (spec/30_encoding.md R63, R65 to R70).
-/

namespace Sys2Proof.Laws.EncodesItsRow

/-- The encoded word, masked to its fixed bits, is the row's pattern. -/
def Statement (i : Instr) : Prop := (rowOf i).matches (encodeWord i) = true

theorem cls : Statement .cls := rfl

theorem ret : Statement .ret := rfl

theorem jp (nnn : Imm12) : Statement (.jp nnn) :=
  decide_eq_true (formatNnn_mask _ _)

theorem call (nnn : Imm12) : Statement (.call nnn) :=
  decide_eq_true (formatNnn_mask _ _)

theorem seImm (x : RegIx) (kk : Byte) : Statement (.seImm x kk) :=
  decide_eq_true (formatXkk_mask _ _ _)

theorem sneImm (x : RegIx) (kk : Byte) : Statement (.sneImm x kk) :=
  decide_eq_true (formatXkk_mask _ _ _)

theorem seReg (x y : RegIx) : Statement (.seReg x y) :=
  decide_eq_true (formatXyn_maskXY _ _ _ _)

theorem ldImm (x : RegIx) (kk : Byte) : Statement (.ldImm x kk) :=
  decide_eq_true (formatXkk_mask _ _ _)

theorem addImm (x : RegIx) (kk : Byte) : Statement (.addImm x kk) :=
  decide_eq_true (formatXkk_mask _ _ _)

theorem ldReg (x y : RegIx) : Statement (.ldReg x y) :=
  decide_eq_true (formatXyn_maskXY _ _ _ _)

theorem orReg (x y : RegIx) : Statement (.orReg x y) :=
  decide_eq_true (formatXyn_maskXY _ _ _ _)

theorem andReg (x y : RegIx) : Statement (.andReg x y) :=
  decide_eq_true (formatXyn_maskXY _ _ _ _)

theorem xorReg (x y : RegIx) : Statement (.xorReg x y) :=
  decide_eq_true (formatXyn_maskXY _ _ _ _)

theorem addReg (x y : RegIx) : Statement (.addReg x y) :=
  decide_eq_true (formatXyn_maskXY _ _ _ _)

theorem sub (x y : RegIx) : Statement (.sub x y) :=
  decide_eq_true (formatXyn_maskXY _ _ _ _)

theorem shr (x y : RegIx) : Statement (.shr x y) :=
  decide_eq_true (formatXyn_maskXY _ _ _ _)

theorem subn (x y : RegIx) : Statement (.subn x y) :=
  decide_eq_true (formatXyn_maskXY _ _ _ _)

theorem shl (x y : RegIx) : Statement (.shl x y) :=
  decide_eq_true (formatXyn_maskXY _ _ _ _)

theorem sneReg (x y : RegIx) : Statement (.sneReg x y) :=
  decide_eq_true (formatXyn_maskXY _ _ _ _)

theorem ldI (nnn : Imm12) : Statement (.ldI nnn) :=
  decide_eq_true (formatNnn_mask _ _)

theorem jpV0 (nnn : Imm12) : Statement (.jpV0 nnn) :=
  decide_eq_true (formatNnn_mask _ _)

theorem rnd (x : RegIx) (kk : Byte) : Statement (.rnd x kk) :=
  decide_eq_true (formatXkk_mask _ _ _)

theorem drw (x y : RegIx) (n : Nat) : Statement (.drw x y n) :=
  decide_eq_true (formatXyn_mask _ _ _ _)

theorem skp (x : RegIx) : Statement (.skp x) :=
  decide_eq_true (formatXkk_maskX _ _ _)

theorem sknp (x : RegIx) : Statement (.sknp x) :=
  decide_eq_true (formatXkk_maskX _ _ _)

theorem ldVxDt (x : RegIx) : Statement (.ldVxDt x) :=
  decide_eq_true (formatXkk_maskX _ _ _)

theorem ldVxK (x : RegIx) : Statement (.ldVxK x) :=
  decide_eq_true (formatXkk_maskX _ _ _)

theorem ldDtVx (x : RegIx) : Statement (.ldDtVx x) :=
  decide_eq_true (formatXkk_maskX _ _ _)

theorem ldStVx (x : RegIx) : Statement (.ldStVx x) :=
  decide_eq_true (formatXkk_maskX _ _ _)

theorem addI (x : RegIx) : Statement (.addI x) :=
  decide_eq_true (formatXkk_maskX _ _ _)

theorem ldF (x : RegIx) : Statement (.ldF x) :=
  decide_eq_true (formatXkk_maskX _ _ _)

theorem ldB (x : RegIx) : Statement (.ldB x) :=
  decide_eq_true (formatXkk_maskX _ _ _)

theorem ldMemVx (x : RegIx) : Statement (.ldMemVx x) :=
  decide_eq_true (formatXkk_maskX _ _ _)

theorem ldVxMem (x : RegIx) : Statement (.ldVxMem x) :=
  decide_eq_true (formatXkk_maskX _ _ _)

end Sys2Proof.Laws.EncodesItsRow
end

