-- ==== Sys2Proof/Tests/Slice0.lean ====
section
/-!
SUPPORT. The model's own tests: ill-formed terms refused, decoding of words written out from the spec, one
step of each instruction (expected values from spec/95_test_vectors.md and the worked examples of the
rules), and a witness for the hypotheses of every obligation that has some.
-/

open Sys2Proof Sys2Proof.Machine

namespace Sys2Proof.Tests

/-! ## Builders -/

/-- Reset, with these registers. -/
def regs (l : List (RegIx × Byte)) : State := l.foldl (fun s c => s.writeV c.1 c.2) State.reset

/-- With these bytes in memory from an address. -/
def withBytes (s : State) (a : Nat) (bs : List Byte) : State := s.pokeBytes a bs

/-- With this key pressed. -/
def withKey (s : State) (k : Fin 16) : State := { s with key := s.key.set k true }

/-- Is the state after one step of the word `w` placed at pc as `p` says? -/
def after (w : Nat) (s : State) (p : State → Bool) : Bool :=
  match step (s.withFetchWord 16 w) with
  | .next t => p t
  | .fault _ => false
  | .refused _ => false

/-- The number of lit cells. -/
def lit (d : Display) : Nat :=
  ((List.range 32).map fun r => ((List.range 64).filter fun c => d.cell r c).length).sum

/-! ## Well-formedness: the one check refuses a term that breaks it -/

theorem test_wellformed_refuses_n16 : WellFormed (.drw 0 0 16) = false := by decide
theorem test_wellformed_accepts_n15 : WellFormed (.drw 0 0 15) = true := by decide

/-! ## Decoding: the bits of each word are those of its pattern in spec/30_encoding.md R65 to R70 -/

theorem test_decode_family0 : decodeWord 0b0000000011100000#16 = some .cls ∧
    decodeWord 0b0000000011101110#16 = some .ret := by decide
theorem test_decode_jp : decodeWord 0b0001001000110100#16 = some (.jp 0x234#12) := by decide
theorem test_decode_call : decodeWord 0b0010001100000000#16 = some (.call 0x300#12) := by decide
theorem test_decode_seImm : decodeWord 0b0011001100101010#16 = some (.seImm 3 0x2A#8) := by decide
theorem test_decode_sneImm : decodeWord 0b0100001100101010#16 = some (.sneImm 3 0x2A#8) := by decide
theorem test_decode_seReg : decodeWord 0b0101000100100000#16 = some (.seReg 1 2) := by decide
theorem test_decode_ldImm : decodeWord 0b0110101000111100#16 = some (.ldImm 10 0x3C#8) := by decide
theorem test_decode_addImm : decodeWord 0b0111001000000001#16 = some (.addImm 2 0x01#8) := by decide
theorem test_decode_ldReg : decodeWord 0b1000000100100000#16 = some (.ldReg 1 2) := by decide
theorem test_decode_orReg : decodeWord 0b1000000100100001#16 = some (.orReg 1 2) := by decide
theorem test_decode_andReg : decodeWord 0b1000000100100010#16 = some (.andReg 1 2) := by decide
theorem test_decode_xorReg : decodeWord 0b1000000100100011#16 = some (.xorReg 1 2) := by decide
theorem test_decode_addReg : decodeWord 0b1000000100100100#16 = some (.addReg 1 2) := by decide
theorem test_decode_sub : decodeWord 0b1000000100100101#16 = some (.sub 1 2) := by decide
theorem test_decode_shr : decodeWord 0b1000000100100110#16 = some (.shr 1 2) := by decide
theorem test_decode_subn : decodeWord 0b1000000100100111#16 = some (.subn 1 2) := by decide
theorem test_decode_shl : decodeWord 0b1000000100101110#16 = some (.shl 1 2) := by decide
theorem test_decode_sneReg : decodeWord 0b1001000100100000#16 = some (.sneReg 1 2) := by decide
theorem test_decode_ldI : decodeWord 0b1010001011110000#16 = some (.ldI 0x2F0#12) := by decide
theorem test_decode_jpV0 : decodeWord 0b1011001100000000#16 = some (.jpV0 0x300#12) := by decide
theorem test_decode_rnd : decodeWord 0b1100001100001111#16 = some (.rnd 3 0x0F#8) := by decide
theorem test_decode_drw : decodeWord 0b1101000100100101#16 = some (.drw 1 2 5) := by decide
theorem test_decode_skp : decodeWord 0b1110010110011110#16 = some (.skp 5) := by decide
theorem test_decode_sknp : decodeWord 0b1110010110100001#16 = some (.sknp 5) := by decide
theorem test_decode_ldVxDt : decodeWord 0b1111001100000111#16 = some (.ldVxDt 3) := by decide
theorem test_decode_ldVxK : decodeWord 0b1111001100001010#16 = some (.ldVxK 3) := by decide
theorem test_decode_ldDtVx : decodeWord 0b1111001000010101#16 = some (.ldDtVx 2) := by decide
theorem test_decode_ldStVx : decodeWord 0b1111001000011000#16 = some (.ldStVx 2) := by decide
theorem test_decode_addI : decodeWord 0b1111001000011110#16 = some (.addI 2) := by decide
theorem test_decode_ldF : decodeWord 0b1111010000101001#16 = some (.ldF 4) := by decide
theorem test_decode_ldB : decodeWord 0b1111011100110011#16 = some (.ldB 7) := by decide
theorem test_decode_ldMemVx : decodeWord 0b1111001001010101#16 = some (.ldMemVx 2) := by decide
theorem test_decode_ldVxMem : decodeWord 0b1111000101100101#16 = some (.ldVxMem 1) := by decide
/-- One undefined word of each family that has some (R72), next to a defined one. -/
theorem test_decode_undefined : [0x00E1#16, 0x5121#16, 0x8018#16, 0x801F#16, 0x9121#16, 0xE59F#16, 0xF0FF#16].all
    (fun w => (decodeWord w).isNone) = true := by decide
theorem test_decode_bytes_bigEndian : decode [0xA2#8, 0xF0#8, 0x55#8] = .ok (.ldI 0x2F0#12, [0x55#8]) := by decide
theorem test_encode_bytes : encode (.ldI 0x2F0#12) = [0xA2#8, 0xF0#8] := by decide

/-! ## Control transfer (L2-CF) -/

theorem test_ret_pops : after 0x00EE
    { State.reset with pc := 0x300, sp := 1, stack := State.reset.stack.set 0 0x204 }
    (fun t => t.pc == 0x204 && t.sp == 0 && t.slot 0 == 0x204 && t.fault == none) = true := by decide
theorem test_ret_underflow : after 0x00EE { State.reset with pc := 0x300, dt := 3 }
    (fun t => t.pc == 0x300 && t.sp == 0 && t.dt == 3 && t.opcode == 0x00EE &&
      t.fault == some (.stackUnderflow 0x300)) = true := by decide
theorem test_jp : after 0x1234 State.reset (fun t => t.pc == 0x234) = true := by decide
theorem test_jp_self_ticks : after 0x1200 { State.reset with dt := 3, st := 1 }
    (fun t => t.pc == 0x200 && t.dt == 2 && t.st == 0) = true := by decide
theorem test_call_last_word : after 0x2300 { State.reset with pc := 0xFFE }
    (fun t => t.pc == 0x300 && t.sp == 1 && t.slot 0 == 0x1000) = true := by decide
theorem test_call_overflow : after 0x2300 { State.reset with sp := 16 }
    (fun t => t.pc == 0x200 && t.sp == 16 && t.fault == some (.stackOverflow 0x200)) = true := by decide
theorem test_seImm_taken : after 0x332A (regs [(3, 0x2A)]) (fun t => t.pc == 0x204) = true := by decide
theorem test_seImm_untaken : after 0x332A (regs [(3, 0x2B)]) (fun t => t.pc == 0x202) = true := by decide
theorem test_sneImm_taken : after 0x4300 (regs [(3, 0x2A)]) (fun t => t.pc == 0x204) = true := by decide
theorem test_sneImm_untaken : after 0x432A (regs [(3, 0x2A)]) (fun t => t.pc == 0x202) = true := by decide
theorem test_seReg_taken : after 0x5120 (regs [(1, 7), (2, 7)]) (fun t => t.pc == 0x204) = true := by decide
theorem test_seReg_undefined_word : after 0x5121 (regs [(1, 7), (2, 7)]) (fun t => t.pc == 0x202) = true := by decide
theorem test_sneReg_taken : after 0x9120 (regs [(1, 7), (2, 8)]) (fun t => t.pc == 0x204) = true := by decide
theorem test_sneReg_untaken : after 0x9120 (regs [(1, 7), (2, 7)]) (fun t => t.pc == 0x202) = true := by decide
theorem test_jpV0 : after 0xB300 (regs [(0, 4)]) (fun t => t.pc == 0x304) = true := by decide
theorem test_jpV0_past_end : after 0xBFF0 (regs [(0, 0x20)])
    (fun t => t.pc == 0x1010 && t.fault == none) = true := by decide

/-! ## Register loads and arithmetic (L2-A) -/

theorem test_ldImm : after 0x6A3C State.reset (fun t => t.readV 10 == 0x3C && t.pc == 0x202) = true := by decide
theorem test_addImm_wraps : after 0x7201 (regs [(2, 0xFF), (15, 0x55)])
    (fun t => t.readV 2 == 0 && t.readV 15 == 0x55) = true := by decide
theorem test_addImm_vf : after 0x7F01 (regs [(15, 0xFF)]) (fun t => t.readV 15 == 0) = true := by decide
theorem test_ldReg : after 0x8010 (regs [(1, 0x55)]) (fun t => t.readV 0 == 0x55) = true := by decide
theorem test_orReg : after 0x8011 (regs [(0, 0x0F), (1, 0x30), (15, 0x77)])
    (fun t => t.readV 0 == 0x3F && t.readV 15 == 0x77) = true := by decide
theorem test_andReg : after 0x8012 (regs [(0, 0x3C), (1, 0x0F)]) (fun t => t.readV 0 == 0x0C) = true := by decide
theorem test_xorReg : after 0x8013 (regs [(0, 0x3C), (1, 0x0F)]) (fun t => t.readV 0 == 0x33) = true := by decide
theorem test_addReg_carry : after 0x8014 (regs [(0, 0xF0), (1, 0x10)])
    (fun t => t.readV 0 == 0 && t.readV 15 == 1) = true := by decide
theorem test_addReg_x15 : after 0x8F14 (regs [(15, 0xF0), (1, 0x20)]) (fun t => t.readV 15 == 1) = true := by decide
theorem test_sub_borrow : after 0x8015 (regs [(0, 5), (1, 10)])
    (fun t => t.readV 0 == 0xFB && t.readV 15 == 0) = true := by decide
theorem test_sub_y15_sequential : after 0x80F5
    { regs [(0, 0x10), (15, 3)] with params := { defaultParams with vfAlias := .sequential } }
    (fun t => t.readV 0 == 0x0F) = true := by decide
theorem test_shr_ignores_y : after 0x8016 (regs [(0, 5), (1, 0xFF)])
    (fun t => t.readV 0 == 2 && t.readV 15 == 1 && t.readV 1 == 0xFF) = true := by decide
theorem test_shr_x15 : after 0x8F06 (regs [(15, 5)]) (fun t => t.readV 15 == 2) = true := by decide
theorem test_subn : after 0x8017 (regs [(0, 3), (1, 10)])
    (fun t => t.readV 0 == 7 && t.readV 15 == 1) = true := by decide
theorem test_subn_borrow : after 0x8017 (regs [(0, 10), (1, 3)])
    (fun t => t.readV 0 == 0xF9 && t.readV 15 == 0) = true := by decide
theorem test_shl : after 0x800E (regs [(0, 0x81)]) (fun t => t.readV 0 == 2 && t.readV 15 == 1) = true := by decide
theorem test_shl_x15 : after 0x8F0E (regs [(15, 0xC0)]) (fun t => t.readV 15 == 0x80) = true := by decide
theorem test_undefined_8xy8 : after 0x8018 (regs [(0, 0x11), (1, 0x22)])
    (fun t => t.readV 0 == 0x11 && t.readV 1 == 0x22 && t.pc == 0x202 && t.fault == none) = true := by decide
theorem test_rnd : after 0xC30F { State.reset with draws := [0xA7] }
    (fun t => t.readV 3 == 7 && t.draws == []) = true := by decide

/-! ## Index register and memory (L2-M) -/

theorem test_ldI : after 0xA2F0 State.reset (fun t => t.i == 0x2F0) = true := by decide
theorem test_addI_wraps : after 0xF21E { regs [(2, 1)] with i := 0xFFFF }
    (fun t => t.i == 0 && t.readV 15 == 0) = true := by decide
theorem test_ldF_not_masked : after 0xF429 (regs [(4, 0xFF)]) (fun t => t.i == 0x4FB) = true := by decide
theorem test_ldB : after 0xF733 { regs [(7, 0x9C)] with i := 0x300 }
    (fun t => t.readByte 0x300 == 1 && t.readByte 0x301 == 5 && t.readByte 0x302 == 6 && t.i == 0x300) = true := by decide
theorem test_ldB_out_of_range : after 0xF733 (withBytes { regs [(7, 1)] with i := 0xFFE } 0xFFE [0x77, 0x88])
    (fun t => t.readByte 0xFFE == 0x77 && t.readByte 0xFFF == 0x88 && t.pc == 0x200 &&
      t.fault == some (.addressOutOfRange 0x1000)) = true := by decide
theorem test_ldMemVx : after 0xF255 { regs [(0, 1), (1, 2), (2, 3), (3, 4)] with i := 0x300 }
    (fun t => t.readByte 0x300 == 1 && t.readByte 0x302 == 3 && t.readByte 0x303 == 0 && t.i == 0x300) = true := by decide
theorem test_ldMemVx_last : after 0xFF55 { regs [(15, 0x99)] with i := 0xFF0 }
    (fun t => t.readByte 0xFFF == 0x99 && t.fault == none) = true := by decide
theorem test_ldVxMem : after 0xF165 (withBytes { State.reset with i := 0x300 } 0x300 [0xAA, 0xBB, 0xCC])
    (fun t => t.readV 0 == 0xAA && t.readV 1 == 0xBB && t.readV 2 == 0 && t.i == 0x300) = true := by decide
theorem test_ldVxMem_out_of_range : after 0xF065 { State.reset with i := 0x1000 }
    (fun t => t.readV 0 == 0 && t.fault == some (.addressOutOfRange 0x1000)) = true := by decide

/-! ## Timers (L2-T) -/

theorem test_ldVxDt : after 0xF307 { State.reset with dt := 5 } (fun t => t.readV 3 == 5 && t.dt == 4) = true := by decide
theorem test_ldDtVx : after 0xF215 (regs [(2, 0x3C)]) (fun t => t.dt == 59) = true := by decide
theorem test_ldStVx : after 0xF218 (regs [(2, 3)]) (fun t => t.st == 2 && portSound t) = true := by decide
theorem test_ldStVx_one : after 0xF218 (regs [(2, 1)]) (fun t => t.st == 0 && !portSound t) = true := by decide

/-! ## Display and input (L2-D) -/

theorem test_cls : after 0x00E0
    { regs [(15, 1)] with disp := Display.toggle (Display.toggle State.reset.disp 0 0) 31 63 }
    (fun t => t.disp == State.reset.disp && t.readV 15 == 1) = true := by decide
theorem test_drw_wraps : after 0xD012 (withBytes { regs [(0, 0x3E), (1, 0x1F)] with i := 0x300 } 0x300 [0xFF, 0x80])
    (fun t => lit t.disp == 9 && t.disp.cell 31 62 && t.disp.cell 31 63 && t.disp.cell 31 0 && t.disp.cell 31 5 &&
      t.disp.cell 0 62 && t.readV 15 == 0) = true := by decide
theorem test_drw_collides : after 0xD015 { State.reset with disp := Display.toggle State.reset.disp 0 0 }
    (fun t => lit t.disp == 13 && !t.disp.cell 0 0 && t.readV 15 == 1) = true := by decide
theorem test_skp : after 0xE59E (withKey (regs [(5, 3)]) 3) (fun t => t.pc == 0x204) = true := by decide
theorem test_skp_index_fault : after 0xE59E (regs [(5, 0x10)])
    (fun t => t.pc == 0x200 && t.fault == some (.keyIndexOutOfRange 0x200 0x10)) = true := by decide
theorem test_sknp_taken : after 0xE5A1 (regs [(5, 3)]) (fun t => t.pc == 0x204) = true := by decide
theorem test_sknp_untaken : after 0xE5A1 (withKey (regs [(5, 3)]) 3) (fun t => t.pc == 0x202) = true := by decide
theorem test_ldVxK_waits : after 0xF30A { State.reset with dt := 2 }
    (fun t => t.pc == 0x200 && t.dt == 1 && t.readV 3 == 0) = true := by decide
theorem test_ldVxK_lowest : after 0xF30A (withKey (withKey State.reset 9) 5)
    (fun t => t.readV 3 == 5 && t.pc == 0x202) = true := by decide

/-! ## Fetch, undefined words and host operations (L2-CF23, L2-T9, L2-H) -/

theorem test_fetch_last_byte : (match step { State.reset with pc := 0xFFF } with
    | .next t => t.pc == 0xFFF && t.fault == some (.addressOutOfRange 0x1000)
    | _ => false) = true := by decide
theorem test_undefined_ticks : after 0x0000 { State.reset with dt := 1, st := 2 }
    (fun t => t.dt == 0 && t.st == 1 && t.pc == 0x202) = true := by decide
theorem test_halted_step : portStep { State.reset with fault := some (.stackUnderflow 0x300) } =
    (.err (.stackUnderflow 0x300), { State.reset with fault := some (.stackUnderflow 0x300) }) := by decide
theorem test_setKey_rejects_16 : portCall (.setKey 16 true) State.reset =
    (.hostError .invalidKey, State.reset) := by decide
theorem test_reset_glyph0 : (List.range 5).map State.reset.readByte = [0xF0, 0x90, 0x90, 0x90, 0xF0] := by decide

/-! ## Witnesses: states and operands that meet the hypotheses of each obligation, at the ends of their ranges -/

/-- The reset state with the word `w` where its next step fetches. -/
def placed (w : Nat) : State := State.reset.withFetchWord 16 w

/-- The reset state at another pc. -/
def atPc (pc : Word) : State := { State.reset with pc := pc }

/-- Reset parameters but for the font-write setting. -/
def fontWrite (fw : Config.FontWrite) (i : Word) : State :=
  { State.reset with params := { defaultParams with fontWrite := fw }, i := i }

/-- Reset parameters but for the key-index setting, with V5 = 0x13. -/
def keyIndex (ki : Config.KeyIndex) : State :=
  { regs [(5, 0x13)] with params := { defaultParams with keyIndex := ki } }

theorem witness_DecodeInvertsEncode : WellFormed (.drw 15 15 15) = true ∧ WellFormed (.shr 1 2) = true := by decide
theorem witness_EncodeInvertsDecode : decodeWord 0x8126#16 = some (.shr 1 2) ∧
    decodeWord 0xFF65#16 = some (.ldVxMem 15) := by decide
theorem witness_NoWordMatchesTwoRows : (rowOf (.ldB 0)) ∈ opcodeRows ∧ (rowOf (.ldB 0)).matches 0xFA33#16 = true := by decide
theorem witness_UndefinedWordsMatchNoRow : decodeWord 0x0123#16 = none ∧ decodeWord 0xFFFF#16 = none ∧
    decodeWord 0x0000#16 = none ∧ decodeWord 0x00E0#16 = some .cls := by decide

/-- Also for NextPcOfEachInstruction, StepTicksBothTimers, StepKeepsKeysAndParameters. -/
theorem witness_StepRunsDecodedInstruction : Fetches (placed 0x6A3C) ∧
    decodeWord (fetchWord (placed 0x6A3C)) = some (.ldImm 10 0x3C) ∧
    Fetches (({ State.reset with pc := 0xFFE }).withFetchWord 16 0x6A3C) :=
  ⟨⟨rfl, by decide⟩, by decide, rfl, by decide⟩
theorem witness_FetchReadsTwoBytesOrFaults : (atPc 0xFFE).fault = none ∧ (atPc 0xFFE).pc.toNat < 0xFFF ∧
    (atPc 0xFFF).pc.toNat = 0xFFF ∧ 4096 ≤ (atPc 0x1000).pc.toNat ∧ 4096 ≤ (atPc 0xFFFF).pc.toNat := by decide
theorem witness_UndefinedWordIsNoOp : Fetches (placed 0x8018) ∧ decodeWord (fetchWord (placed 0x8018)) = none :=
  ⟨⟨rfl, by decide⟩, by decide⟩
/-- A fault of the instruction, and one of the fetch. -/
theorem witness_FaultingStepCommitsNothing :
    (∃ t, (placed 0x00EE).fault = none ∧ step (placed 0x00EE) = .next t ∧ t.fault = some (.stackUnderflow 0x200)) ∧
    ∃ t, (atPc 0xFFF).fault = none ∧ step (atPc 0xFFF) = .next t ∧ t.fault = some (.addressOutOfRange 4096) :=
  ⟨⟨_, rfl, rfl, rfl⟩, ⟨_, rfl, rfl, rfl⟩⟩
theorem witness_StepTicksBothTimers :
    (∃ t, (placed 0xF215).fault = none ∧ step (placed 0xF215) = .next t ∧ t.fault = none ∧
      decodeWord (fetchWord (placed 0xF215)) = some (.ldDtVx 2)) ∧
    (∃ t, (placed 0xF218).fault = none ∧ step (placed 0xF218) = .next t ∧ t.fault = none ∧
      decodeWord (fetchWord (placed 0xF218)) = some (.ldStVx 2)) ∧
    ∃ t, (placed 0x1200).fault = none ∧ step (placed 0x1200) = .next t ∧ t.fault = none :=
  ⟨⟨_, rfl, rfl, rfl, by decide⟩, ⟨_, rfl, rfl, rfl, by decide⟩, ⟨_, rfl, rfl, rfl⟩⟩
/-- An undefined word, and both ends of the taken and untaken skip. -/
theorem witness_NextPcOfEachInstruction :
    (∃ t, Fetches (placed 0x8018) ∧ step (placed 0x8018) = .next t ∧ t.fault = none) ∧
    (∃ t, Fetches (placed 0x3000) ∧ step (placed 0x3000) = .next t ∧ t.fault = none ∧ t.pc = 0x204) ∧
    ∃ t, Fetches (placed 0x3001) ∧ step (placed 0x3001) = .next t ∧ t.fault = none ∧ t.pc = 0x202 :=
  ⟨⟨_, ⟨rfl, by decide⟩, rfl, rfl⟩, ⟨_, ⟨rfl, by decide⟩, rfl, rfl, by decide⟩,
    ⟨_, ⟨rfl, by decide⟩, rfl, rfl, by decide⟩⟩
theorem witness_HaltedUntilReset : ({ State.reset with fault := some (.stackOverflow 0x200) } : State).fault =
    some (.stackOverflow 0x200) ∧ (List.replicate 3584 (0 : Byte)).length ≤ 3584 ∧ 15 < 16 :=
  ⟨rfl, by rw [List.length_replicate], by decide⟩
theorem witness_StepReturnsOkOrErr : State.reset.fault = none := rfl
/-- Each fault of the table, just past the end of the range where it is not raised. -/
theorem witness_FaultsOfTheBlock :
    (∃ t, exec (.call 0) { State.reset with sp := 16 } = .next t ∧ t.fault = some (.stackOverflow 0x200)) ∧
    (∃ t, exec .ret State.reset = .next t ∧ t.fault = some (.stackUnderflow 0x200)) ∧
    (∃ t, exec (.drw 0 0 2) { State.reset with i := 0xFFF } = .next t ∧ t.fault = some (.addressOutOfRange 4096)) ∧
    (∃ t, exec (.ldB 0) { State.reset with i := 0xFFE } = .next t ∧ t.fault = some (.addressOutOfRange 4096)) ∧
    (∃ t, exec (.ldVxMem 0) { State.reset with i := 0x1001 } = .next t ∧ t.fault = some (.addressOutOfRange 4097)) ∧
    (∃ t, exec (.ldMemVx 0) (fontWrite .fault 79) = .next t ∧ t.fault = some (.addressOutOfRange 79)) ∧
    (∃ t, exec (.skp 5) (keyIndex .fault) = .next t ∧ t.fault = some (.keyIndexOutOfRange 0x200 0x13)) ∧
    ∃ t, exec (.drw 0 0 0) { State.reset with i := 0xFFFF } = .next t ∧ t.fault = none :=
  ⟨⟨_, rfl, rfl⟩, ⟨_, rfl, rfl⟩, ⟨_, rfl, rfl⟩, ⟨_, rfl, rfl⟩, ⟨_, rfl, rfl⟩, ⟨_, rfl, rfl⟩, ⟨_, rfl, rfl⟩, ⟨_, rfl, rfl⟩⟩
/-- The invariant at its bounds, and a step from there. Also for PortRunsKeepInvariant. -/
theorem witness_StepKeepsInvariant : Inv { State.reset with pc := 0x10FE, sp := 16 } ∧
    ∃ t, step { State.reset with pc := 0x10FE, sp := 16 } = .next t :=
  ⟨⟨rfl, by decide, by decide, fun j => by simp [State.slot, State.reset, State.resetWith]⟩, _, rfl⟩
/-- Also for OnlyBcdAndStoreWriteMemory and WritersOfIndexAndDisplay. -/
theorem witness_OnlyCallAndReturnWriteStack : ∃ t, exec (.jp 0x234) State.reset = .next t ∧
    (∀ nnn, Instr.jp 0x234 ≠ .call nnn) ∧ (∀ x, Instr.jp 0x234 ≠ .ldB x ∧ Instr.jp 0x234 ≠ .ldMemVx x) ∧
    (∀ nnn x, Instr.jp 0x234 ≠ .ldI nnn ∧ Instr.jp 0x234 ≠ .addI x ∧ Instr.jp 0x234 ≠ .ldF x) ∧
    ∀ x y n, Instr.jp 0x234 ≠ .cls ∧ Instr.jp 0x234 ≠ .drw x y n :=
  ⟨_, rfl, by simp, by simp, by simp, by simp⟩
/-- A destination register, VF as a flag, the registers of Fx65, and VF after a draw. -/
theorem witness_WritersOfRegisters :
    (∃ t, exec (.ldImm 3 7) State.reset = .next t ∧ t.readV 3 ≠ State.reset.readV 3) ∧
    (∃ t, exec (.shr 0 0) (regs [(0, 1)]) = .next t ∧ t.readV 0 ≠ (regs [(0, 1)]).readV 0 ∧
      t.readV 15 ≠ (regs [(0, 1)]).readV 15) ∧
    (∃ t, exec (.ldVxMem 1) State.reset = .next t ∧ t.readV 1 ≠ State.reset.readV 1) ∧
    ∃ t, exec (.drw 0 0 1) { State.reset with disp := Display.toggle State.reset.disp 0 0 } = .next t ∧
      t.readV 15 = 1 :=
  ⟨⟨_, rfl, by decide⟩, ⟨_, rfl, by decide, by decide⟩, ⟨_, rfl, by decide⟩, ⟨_, rfl, by decide⟩⟩
/-- Also for SoundTimerNeverRead. -/
theorem witness_OpcodeRegisterNeverRead : ∃ t, exec (.ldStVx 0) State.reset = .next t := ⟨_, rfl⟩
/-- Two states that differ in the slot at sp. -/
theorem witness_StaleSlotsNeverRead :
    AgreeOnLiveStack { State.reset with sp := 1 }
      { State.reset with sp := 1, stack := State.reset.stack.set 1 0x204 } ∧
    ∃ t, exec .ret { State.reset with sp := 1 } = .next t := by
  refine ⟨⟨fun j hj => ?_, rfl⟩, _, rfl⟩
  obtain rfl : j = 0 := Nat.lt_one_iff.mp hj
  decide
theorem witness_ReturnPopsOrUnderflows : State.reset.sp = 0 ∧ 0 < ({ State.reset with sp := 1 } : State).sp ∧
    0 < ({ State.reset with sp := 16 } : State).sp ∧ ({ State.reset with sp := 16 } : State).sp ≤ 16 := by decide
theorem witness_CallPushesOrOverflows : ({ State.reset with sp := 16 } : State).sp = 16 ∧
    ({ State.reset with sp := 15 } : State).sp < 16 ∧ State.reset.sp < 16 := by decide
theorem witness_ReturnUndoesCall : ∃ t, ({ State.reset with sp := 15 } : State).sp < 16 ∧
    exec (.call 0x300) { State.reset with sp := 15 } = .next t ∧ t.sp = t.sp ∧ t.stack = t.stack :=
  ⟨_, by decide, rfl, rfl, rfl⟩
/-- Each setting of `P_VF_ALIAS` with VF as x, as y and as neither, for the clauses of AddRegistersSetsCarry,
SubtractRegistersSetsFlag and ShiftsSetFlag. -/
theorem witness_SubtractRegistersSetsFlag :
    State.reset.params.vfAlias = .snapshotTableOrder ∧ (14 : RegIx) ≠ 15 ∧
    ¬ (({ State.reset with params := { defaultParams with vfAlias := .sequential } } : State).params.vfAlias =
      .sequential ∧ (15 : RegIx) = 15 ∧ (14 : RegIx) = 15) := by decide
theorem witness_AliasSettingsAgreeAwayFromVf : ∃ t, (0 : RegIx) ≠ 15 ∧ (14 : RegIx) ≠ 15 ∧
    Instr.sub 0 14 ∈ [Instr.addReg 0 14, .sub 0 14, .shr 0 14, .subn 0 14, .shl 0 14] ∧
    exec (.sub 0 14) State.reset = .next t :=
  ⟨_, by decide, by decide, by decide, rfl⟩
theorem witness_RandomMaskedByImmediate : (0 : Byte) = 0 ∧ (0xFF : Byte) = 0xFF := by decide
theorem witness_OnlyRandomTakesDraws : ({ State.reset with draws := [0xA7] } : State).draws = 0xA7 :: [] ∧
    ∃ t, exec (.ldImm 3 7) State.reset = .next t ∧ ∀ x kk, Instr.ldImm 3 7 ≠ .rnd x kk :=
  ⟨rfl, _, rfl, by simp⟩
/-- The last address that is in range and the first that is not; the last font byte and the first after it.
The same clauses stand in StoreRegistersFromIndex (x = 2) and, for the range, in LoadRegistersFromIndex. -/
theorem witness_BcdStoresThreeDigits :
    (fontWrite .write 0xFFD).base + 2 ≤ 4095 ∧ 4095 < (fontWrite .write 0xFFE).base + 2 ∧
    (fontWrite .fault 80).params.fontWrite = .fault ∧ 80 ≤ (fontWrite .fault 80).base ∧
    (fontWrite .fault 79).params.fontWrite = .fault ∧ (fontWrite .fault 79).base < 80 ∧
    (fontWrite .ignore 79).params.fontWrite = .ignore ∧ (fontWrite .ignore 79).base < 80 := by decide
theorem witness_StoreRegistersFromIndex :
    (fontWrite .write 0xFF0).base + (15 : RegIx).val ≤ 4095 ∧ (0 : RegIx) ≤ 15 ∧
    4095 < (fontWrite .write 0xFF1).base + (15 : RegIx).val ∧
    (fontWrite .fault 0).params.fontWrite = .fault ∧ (fontWrite .fault 0).base < 80 := by decide
theorem witness_FontWriteSettings :
    (fontWrite .write 79).base + (bcdDigits ((fontWrite .write 79).readV 0)).length ≤ 4096 ∧
    (fontWrite .write 79).params.fontWrite = .write ∧ (fontWrite .ignore 79).params.fontWrite = .ignore ∧
    (fontWrite .fault 79).params.fontWrite = .fault ∧ (fontWrite .fault 79).base < 80 ∧
    80 ≤ (fontWrite .fault 80).base ∧ 0 < (bcdDigits 0).length ∧
    ∃ t, portLoad [0x12, 0x00] State.reset = .ok t :=
  ⟨by decide, rfl, rfl, rfl, by decide, by decide, by decide, _, rfl⟩
theorem witness_LoadRegistersFromIndex :
    ({ State.reset with i := 0xFF0 } : State).base + (15 : RegIx).val ≤ 4095 ∧
    4095 < ({ State.reset with i := 0xFF1 } : State).base + (15 : RegIx).val ∧ (14 : RegIx) < 15 := by decide
theorem witness_LoadUndoesStore : ∃ t, (fontWrite .write 0xFF0).base + (15 : RegIx).val ≤ 4095 ∧
    (fontWrite .write 0xFF0).params.fontWrite = .write ∧ exec (.ldMemVx 15) (fontWrite .write 0xFF0) = .next t ∧
    t.mem = t.mem ∧ t.params = t.params ∧ t.i = t.i :=
  ⟨_, by decide, rfl, rfl, rfl, rfl, rfl⟩
theorem witness_FetchSeesEarlierStores : ∃ t, 80 ≤ ({ State.reset with i := 0x202 } : State).base ∧
    ({ State.reset with i := 0x202 } : State).base + 1 ≤ 4095 ∧
    ({ State.reset with i := 0x202 } : State).base = State.reset.pc.toNat + 2 ∧
    exec (.ldMemVx 1) { State.reset with i := 0x202 } = .next t :=
  ⟨_, by decide, by decide, by decide, rfl⟩
/-- DT written, one step that does not write it, and Fx07; the same for ST. -/
theorem witness_TimerCountsDownFromWrite :
    (∃ u t r, Fetches (withBytes State.reset 0x200 [0xF2, 0x15, 0x60, 0x00, 0xF3, 0x07]) ∧
      step (withBytes State.reset 0x200 [0xF2, 0x15, 0x60, 0x00, 0xF3, 0x07]) = .next u ∧
      StepsAvoiding writesDelayTimer 1 u t ∧ Fetches t ∧ decodeWord (fetchWord t) = some (.ldVxDt 3) ∧
      step t = .next r) ∧
    ∃ u, step (placed 0xF218) = .next u ∧ decodeWord (fetchWord (placed 0xF218)) = some (.ldStVx 2) ∧
      StepsAvoiding writesSoundTimer 0 u u := by
  refine ⟨⟨_, _, _, ⟨rfl, by decide⟩, rfl, ⟨?_, _, rfl, rfl, rfl⟩, ⟨rfl, by decide⟩, by decide, rfl⟩, _, rfl, by decide, rfl⟩
  intro i h
  have h' : some (Instr.ldImm 0 0) = some i := by rw [← h]; decide
  cases h'; rfl
/-- n = 0; the last row that is in range; the first sprite that is not; a collision and none. -/
theorem witness_DrawXorsSprite : (15 < 16 ∧ 4096 < 4096 + 15) ∧
    ({ State.reset with i := 0xFF1 } : State).base + 15 ≤ 4096 ∧
    4096 < ({ State.reset with i := 0xFF2 } : State).base + 15 ∧
    Collides { State.reset with disp := Display.toggle State.reset.disp 0 0 } 0 0 1 ∧ ¬ Collides State.reset 0 0 0 :=
  ⟨by decide, by decide, by decide, ⟨0, 0, by decide, by decide, by decide, by decide⟩,
    fun ⟨_, _, _, _, h, _⟩ => by simp [spriteBit] at h⟩
theorem witness_DrawTwiceRestores : ∃ t, (5 < 16) ∧ State.reset.base + 5 ≤ 4096 ∧ (0 : RegIx) ≠ 15 ∧
    (1 : RegIx) ≠ 15 ∧ exec (.drw 0 1 5) State.reset = .next t ∧ (State.reset.readByte 0).getLsbD 7 = true :=
  ⟨_, by decide, by decide, by decide, by decide, rfl, by decide⟩
/-- Key 15 by its latch, and 0x13 under each setting of `P_KEY_INDEX`. -/
theorem witness_KeySkips : ((regs [(5, 15)]).readV 5).toNat ≤ 15 ∧ (regs [(5, 15)]).pressed 15 = false ∧
    15 < ((keyIndex .lowNibble).readV 5).toNat ∧ (keyIndex .lowNibble).params.keyIndex = .lowNibble ∧
    (keyIndex .lowNibble).pressed (((keyIndex .lowNibble).readV 5).toNat % 16) = false ∧
    15 < ((keyIndex .notPressed).readV 5).toNat ∧ (keyIndex .notPressed).params.keyIndex = .notPressed ∧
    15 < ((keyIndex .fault).readV 5).toNat ∧ (keyIndex .fault).params.keyIndex = .fault := by decide
theorem witness_KeyWaitPolls : (withKey State.reset 15).pressed 15 = true ∧
    (∀ j, j < 15 → (withKey State.reset 15).pressed j = false) ∧ ∀ k, State.reset.pressed k = false :=
  ⟨by decide, by decide, fun k => by simp [State.pressed, State.reset, State.resetWith]⟩
theorem witness_LoadWritesImageOrRejects : (List.replicate 3584 (0xAB : Byte)).length ≤ 3584 ∧
    3584 < (List.replicate 3585 (0xAB : Byte)).length := by
  simp only [List.length_replicate]; decide
theorem witness_SetKeyWritesOneLatch : 15 ≤ 15 ∧ 15 < 16 ∧ (0 : Nat) ≠ 15 := by decide
theorem witness_PlacedWordIsFetched : 0xFFFF < 65536 ∧ State.reset.fault = none ∧
    (atPc 0xFFE).pc.toNat + 1 < 4096 := by decide

end Sys2Proof.Tests
end

section
/-!
The reset state component by component (spec/10_state.md R40, spec/70_reset_and_hazards.md R146). The
values are proved of `State.resetWith`; `portReset` differs from it in the count of draws only, so it
reads the same through the congruence laws of each accessor.
-/

namespace Sys2Proof.Machine

/-! What an address that was never written reads as (R48). -/

theorem Memory.unlisted_of_lt (font : Config.Font) {a : Nat} (h : a < Config.fontSize) :
    Memory.unlisted font a = font[a] := dif_pos h

theorem Memory.unlisted_of_le (font : Config.Font) {a : Nat} (h : Config.fontSize ≤ a) :
    Memory.unlisted font a = 0 := dif_neg (Nat.not_lt.mpr h)

/-! The accessors on the reset state. -/

section Reset
variable (p : Config.Params) (ds : List Byte) (s : State)

@[simp] theorem State.readByte_resetWith (a : Nat) :
    (State.resetWith p ds).readByte a = Memory.unlisted p.font a := Memory.read_nil p.font a

@[simp] theorem State.readV_resetWith (r : RegIx) : (State.resetWith p ds).readV r = 0 :=
  Vector.getElem_replicate r.isLt

@[simp] theorem State.slot_resetWith (j : Nat) : (State.resetWith p ds).slot j = 0 := by
  unfold State.slot
  split
  · exact Vector.getElem_replicate _
  · rfl

@[simp] theorem State.pressed_resetWith (k : Nat) : (State.resetWith p ds).pressed k = false := by
  unfold State.pressed
  split
  · exact Vector.getElem_replicate _
  · rfl

@[simp] theorem State.cell_resetWith (r c : Nat) : (State.resetWith p ds).disp.cell r c = false := by
  unfold Display.cell
  split
  · simp [State.resetWith]
  · rfl

/-! The reset port. -/

theorem readByte_portReset (a : Nat) :
    (portReset p ds s).readByte a = Memory.unlisted p.font a :=
  (State.readByte_congr (s := State.resetWith p ds) rfl rfl a).trans (State.readByte_resetWith p ds a)

theorem readV_portReset (r : RegIx) :
    (portReset p ds s).readV r = 0 :=
  (State.readV_congr (s := State.resetWith p ds) rfl r).trans (State.readV_resetWith p ds r)

theorem slot_portReset (j : Nat) :
    (portReset p ds s).slot j = 0 :=
  (State.slot_congr (s := State.resetWith p ds) rfl j).trans (State.slot_resetWith p ds j)

theorem pressed_portReset (k : Nat) :
    (portReset p ds s).pressed k = false :=
  (State.pressed_congr (s := State.resetWith p ds) rfl k).trans (State.pressed_resetWith p ds k)

end Reset

/-- Settles O55: the accessors by the reset laws above, each plain field by its value in `State.resetWith`. -/
theorem resetState : Obligations.ResetState := by
  intro p ds s
  refine ⟨fun a h => ?fontBytes, fun a h => ?zeroBytes, readV_portReset p ds s, rfl, rfl,
    slot_portReset p ds s, rfl, rfl, rfl, State.cell_resetWith p ds, pressed_portReset p ds s,
    rfl, rfl, rfl, rfl, rfl⟩
  case fontBytes => rw [readByte_portReset, Memory.unlisted_of_lt p.font h]
  case zeroBytes => rw [readByte_portReset, Memory.unlisted_of_le p.font h]

end Sys2Proof.Machine
end

section
/-!
Data writes under `P_FONT_WRITE` (spec/20_memory.md R47). Fx33 and Fx55 are both `storeFromI`, so the three
settings are settled for it once: what its check admits, and which bytes it stores and which it drops.
`load` stores from 0x200 up (R136).
-/

namespace Sys2Proof.Machine

/-! Which bytes a run of stores writes (R47, R50). -/

theorem storeDropped_eq_true {fw : Config.FontWrite} {a : Nat} :
    storeDropped fw a = true ↔ fw = .ignore ∧ a < 80 := by
  simp [storeDropped]

theorem storeDropped_eq_false {fw : Config.FontWrite} {a : Nat} :
    storeDropped fw a = false ↔ fw ≠ .ignore ∨ 80 ≤ a := by
  rw [← Bool.not_eq_true, storeDropped_eq_true, not_and_or, Nat.not_lt]

theorem State.readByte_storeBytes_dropped {s : State} {base : Nat} {bs : List Byte} {a : Nat}
    (h : storeDropped s.params.fontWrite a = true) : (s.storeBytes base bs).readByte a = s.readByte a := by
  rw [State.readByte_storeBytes, h, if_neg (fun hc => Bool.noConfusion hc.2.2)]

theorem State.readByte_storeBytes_stored {s : State} {base : Nat} {bs : List Byte} {k : Nat}
    (hk : k < bs.length) (h : storeDropped s.params.fontWrite (base + k) = false) :
    (s.storeBytes base bs).readByte (base + k) = bs[k] := by
  rw [State.readByte_storeBytes, if_pos ⟨by omega, by omega, h⟩, Nat.add_sub_cancel_left,
    List.getD_eq_getElem _ _ hk]

/-! What the store from I does: it only records a fault, or it stores each byte that is not dropped. -/

theorem storeFromI_of_checkStore_some {bs : List Byte} {s : State} {bad : Nat}
    (h : checkStore s.params.fontWrite s.base bs.length = some bad) :
    storeFromI bs s = .next { s with fault := some (.addressOutOfRange bad) } := by
  rw [storeFromI, h]; rfl

theorem storeFromI_of_checkStore_none {bs : List Byte} {s : State}
    (h : checkStore s.params.fontWrite s.base bs.length = none) :
    storeFromI bs s = finish .next (s.storeBytes s.base bs) := by
  rw [storeFromI, h]; rfl

theorem storeFromI_stores {bs : List Byte} {s : State}
    (h : checkStore s.params.fontWrite s.base bs.length = none) :
    ∃ t, storeFromI bs s = .next t ∧ t.fault = s.fault ∧
      (∀ a, storeDropped s.params.fontWrite a = true → t.readByte a = s.readByte a) ∧
      ∀ k, (hk : k < bs.length) → storeDropped s.params.fontWrite (s.base + k) = false →
        t.readByte (s.base + k) = bs[k] :=
  ⟨_, storeFromI_of_checkStore_none h, State.storeBytes_fault s s.base bs,
    fun _ hd => State.readByte_storeBytes_dropped hd,
    fun _ hk hd => State.readByte_storeBytes_stored hk hd⟩

theorem exec_ldB (x : RegIx) (s : State) : exec (.ldB x) s = storeFromI (bcdDigits (s.readV x)) s := rfl

theorem exec_ldMemVx (x : RegIx) (s : State) : exec (.ldMemVx x) s = storeFromI (s.regsUpTo x) s := rfl

/-! The three settings of `P_FONT_WRITE` for bytes that are in range. -/

section Settings
variable {bs : List Byte} {s : State} (hrange : s.base + bs.length ≤ 4096)
include hrange

theorem storeFromI_of_stored (hfw : s.params.fontWrite = .write ∨ 80 ≤ s.base) :
    ∃ t, storeFromI bs s = .next t ∧ t.fault = s.fault ∧
      ∀ k, (hk : k < bs.length) → t.readByte (s.base + k) = bs[k] := by
  have hcheck : checkStore s.params.fontWrite s.base bs.length = none := by
    refine checkStore_eq_none.mpr ⟨.inr hrange, fun ⟨hf, _, hlow⟩ => ?_⟩
    rcases hfw with hw | hhigh
    · cases hw.symm.trans hf
    · omega
  have hkept (k : Nat) : storeDropped s.params.fontWrite (s.base + k) = false := by
    rw [storeDropped_eq_false]
    exact hfw.imp (fun hw hi => by cases hw.symm.trans hi) (fun hhigh => by omega)
  obtain ⟨t, hnext, hfault, -, hstored⟩ := storeFromI_stores hcheck
  exact ⟨t, hnext, hfault, fun k hk => hstored k hk (hkept k)⟩

theorem storeFromI_of_ignore (hfw : s.params.fontWrite = .ignore) :
    ∃ t, storeFromI bs s = .next t ∧ t.fault = s.fault ∧
      (∀ a, a < 80 → t.readByte a = s.readByte a) ∧
      ∀ k, (hk : k < bs.length) → 80 ≤ s.base + k → t.readByte (s.base + k) = bs[k] := by
  have hcheck : checkStore s.params.fontWrite s.base bs.length = none :=
    checkStore_eq_none.mpr ⟨.inr hrange, fun ⟨hf, _⟩ => by cases hfw.symm.trans hf⟩
  obtain ⟨t, hnext, hfault, hdropped, hstored⟩ := storeFromI_stores hcheck
  exact ⟨t, hnext, hfault, fun a ha => hdropped a (storeDropped_eq_true.mpr ⟨hfw, ha⟩),
    fun k hk ha => hstored k hk (storeDropped_eq_false.mpr (.inr ha))⟩

theorem storeFromI_of_fault (hne : bs.length ≠ 0) (hfw : s.params.fontWrite = .fault) (hlow : s.base < 80) :
    storeFromI bs s = .next { s with fault := some (.addressOutOfRange s.base) } :=
  storeFromI_of_checkStore_some (checkStore_eq_some.mpr (.inr ⟨.inr hrange, hfw, hne, hlow, rfl⟩))

end Settings

/-! The load port (R136). -/

theorem portLoad_eq_ok {bytes : List Byte} {s t : State} :
    portLoad bytes s = .ok t ↔ bytes.length ≤ 3584 ∧ s.pokeBytes 0x200 bytes = t := by
  unfold portLoad
  split
  · next hlong => exact ⟨nofun, fun ⟨hfits, _⟩ => absurd hlong (Nat.not_lt.mpr hfits)⟩
  · next hfits => simp only [Except.ok.injEq]; exact (and_iff_right (Nat.not_lt.mp hfits)).symm

theorem State.readByte_pokeBytes_of_lt {s : State} {base : Nat} {bs : List Byte} {a : Nat} (h : a < base) :
    (s.pokeBytes base bs).readByte a = s.readByte a := by
  rw [State.readByte_pokeBytes, if_neg (by omega)]

/-- Settles O44: Fx33 and Fx55 are stores of at least one byte from I, which the lemmas above settle per
setting; a program image starts at 0x200. -/
theorem fontWriteSettings : Obligations.FontWriteSettings := by
  refine ⟨fun x i bs s hi hrange => ?stores, fun bytes s t hload a ha => ?load⟩
  case stores =>
    obtain ⟨hexec, hne⟩ : exec i s = storeFromI bs s ∧ bs.length ≠ 0 := by
      rcases hi with ⟨rfl, rfl⟩ | ⟨rfl, rfl⟩
      · exact ⟨exec_ldB x s, by simp⟩
      · exact ⟨exec_ldMemVx x s, by simp⟩
    rw [hexec]
    exact ⟨fun hfw => storeFromI_of_stored hrange (.inl hfw), storeFromI_of_ignore hrange,
      fun hfw => ⟨storeFromI_of_fault hrange hne hfw, fun hhigh => storeFromI_of_stored hrange (.inr hhigh)⟩⟩
  case load =>
    obtain ⟨-, rfl⟩ := portLoad_eq_ok.mp hload
    exact State.readByte_pokeBytes_of_lt ha

end Sys2Proof.Machine
end

section
/-!
The execution cycle (spec/40_execution_cycle.md R75 to R81). A step of a machine that is not halted ends in
one of four ways (`StepEnds`): a fetch fault, a fault of the instruction, the undefined word, or an
instruction that completes and ticks. What a fault commits, the tick and the next pc are read off these.
-/

namespace Sys2Proof.Machine

/-! The fetch (R76). -/

theorem fetchWord_toNat (s : State) :
    (fetchWord s).toNat = (s.readByte s.pc.toNat).toNat * 256 + (s.readByte (s.pc.toNat + 1)).toNat :=
  wordOfBytes_toNat _ _

theorem fetchFault_eq_some {s : State} {a : Nat} :
    fetchFault s = some a ↔ 4096 ≤ s.pc.toNat + 1 ∧ a = max s.pc.toNat 4096 := by
  unfold fetchFault
  split
  · next h => simp only [Config.memSize] at h; simp only [reduceCtorEq, false_iff]; omega
  · next h => simp only [Config.memSize] at h ⊢; simp only [Option.some.injEq]; split <;> omega

/-! The step by cases: one equation each for the fetch fault, the undefined word and an instruction. -/

theorem step_of_fetch_out_of_range {s : State} (hs : s.fault = none) (hpc : 4096 ≤ s.pc.toNat + 1) :
    step s = .next { s with fault := some (.addressOutOfRange (max s.pc.toNat 4096)) } := by
  unfold step
  rw [hs, fetchFault_eq_some.mpr ⟨hpc, rfl⟩]
  rfl

theorem step_of_undefined {s : State} (hs : Fetches s) (hd : decodeWord (fetchWord s) = none) :
    step s = .next (State.tick { s with opcode := fetchWord s, pc := s.pc + 2 }) := by
  obtain ⟨hrunning, hpc⟩ := hs
  unfold step
  rw [hrunning, fetchFault_eq_none.mpr hpc, hd]
  simp only [execUndefined, finish, endStep_next, latchOpcode, hrunning]
  rfl

theorem step_of_instr {s : State} {i : Instr} (hs : Fetches s) (hd : decodeWord (fetchWord s) = some i) :
    step s = endStep (exec i (latchOpcode s)) := by
  obtain ⟨hrunning, hpc⟩ := hs
  unfold step
  rw [hrunning, fetchFault_eq_none.mpr hpc, hd]

/-- A machine that is not halted has a next state (R75). -/
theorem step_next {s : State} (hs : s.fault = none) : ∃ t, step s = .next t := by
  by_cases hpc : s.pc.toNat + 1 < 4096
  · cases hd : decodeWord (fetchWord s) with
    | none => exact ⟨_, step_of_undefined ⟨hs, hpc⟩ hd⟩
    | some i =>
      obtain ⟨u, hu⟩ := exec_next i (latchOpcode s)
      exact ⟨_, by rw [step_of_instr ⟨hs, hpc⟩ hd, hu, endStep_next]⟩
  · exact ⟨_, step_of_fetch_out_of_range hs (Nat.not_lt.mp hpc)⟩

/-- The four ways a step of a machine that is not halted ends, each with the state it leaves. -/
inductive StepEnds (s : State) : State → Prop where
  | fetchFault (hpc : 4096 ≤ s.pc.toNat + 1) :
      StepEnds s { s with fault := some (.addressOutOfRange (max s.pc.toNat 4096)) }
  | instrFault (i : Instr) (f : Fault) (hpc : s.pc.toNat + 1 < 4096)
      (hd : decodeWord (fetchWord s) = some i)
      (hexec : exec i (latchOpcode s) = .next { latchOpcode s with fault := some f }) :
      StepEnds s { s with fault := some f, opcode := fetchWord s }
  | undefined (hpc : s.pc.toNat + 1 < 4096) (hd : decodeWord (fetchWord s) = none) :
      StepEnds s (State.tick { s with opcode := fetchWord s, pc := s.pc + 2 })
  | completed (i : Instr) (u : State) (hpc : s.pc.toNat + 1 < 4096)
      (hd : decodeWord (fetchWord s) = some i) (hexec : exec i (latchOpcode s) = .next u)
      (hfault : u.fault = none) (hframe : Frame (touches i) (latchOpcode s) u) :
      StepEnds s u.tick

/-- Every next state of a machine that is not halted is one of the four. -/
theorem step_ends {s t : State} (hs : s.fault = none) (h : step s = .next t) : StepEnds s t := by
  rcases step_cases hs h with ⟨a, hf, rfl⟩ | ⟨hf, u, hu, rfl⟩
  · obtain ⟨hpc, rfl⟩ := fetchFault_eq_some.mp hf
    exact .fetchFault hpc
  · have hpc := fetchFault_eq_none.mp hf
    cases hd : decodeWord (fetchWord s) with
    | none =>
      simp only [hd, execUndefined, finish_next] at hu
      subst hu
      rw [if_neg (by simp [latchOpcode, hs])]
      exact .undefined hpc hd
    | some i =>
      simp only [hd] at hu
      rcases exec_cases hu with ⟨f, rfl⟩ | hframe
      · exact .instrFault i f hpc hd hu
      · have hfault : u.fault = none := hframe.fault.trans hs
        simp only [hfault]
        exact .completed i u hpc hd hu hfault hframe

/-- Settles O7: a step that fetches ends in one of the three ways that latch the word. -/
theorem fetchReadsTwoBytesOrFaults : Obligations.FetchReadsTwoBytesOrFaults := by
  intro s hs
  refine ⟨fetchWord_toNat s, fun hpc => ?latched, fun hpc => ?lastByte, fun hpc => ?outside⟩
  case latched =>
    obtain ⟨t, ht⟩ := step_next hs
    refine ⟨t, ht, ?_⟩
    cases step_ends hs ht with
    | fetchFault hout => omega
    | instrFault => rfl
    | undefined => rfl
    | completed _ _ _ _ _ _ hframe => exact hframe.opcode
  case lastByte => rw [step_of_fetch_out_of_range hs (by omega), hpc]; rfl
  case outside => rw [step_of_fetch_out_of_range hs (by omega), Nat.max_eq_left hpc]

/-- Settles O8, from the equation of the step at an undefined word. -/
theorem undefinedWordIsNoOp : Obligations.UndefinedWordIsNoOp := by
  intro s hs hd
  exact ⟨_, step_of_undefined hs hd, hs.1, rfl, rfl, tickByte_toNat s.dt, tickByte_toNat s.st, rfl⟩

/-- Settles O9: of the four ways a step ends, the two that leave a fault commit nothing else. -/
theorem faultingStepCommitsNothing : Obligations.FaultingStepCommitsNothing := by
  intro s t f hs h hf
  cases step_ends hs h with
  | fetchFault hpc =>
    cases hf
    rw [if_neg (Nat.not_lt.mpr hpc)]
  | instrFault _ _ hpc =>
    cases hf
    rw [if_pos hpc]
  | undefined => cases hs.symm.trans hf
  | completed _ _ _ _ _ hfault => cases hfault.symm.trans hf

/-! The timers (R79): only Fx15 writes DT and only Fx18 writes ST, both before the tick. -/

theorem touches_delayTimer {i : Instr} (h : ∀ x, i ≠ .ldDtVx x) : (touches i).delayTimer = false := by
  cases i with
  | ldDtVx x => exact absurd rfl (h x)
  | _ => rfl

theorem touches_soundTimer {i : Instr} (h : ∀ x, i ≠ .ldStVx x) : (touches i).soundTimer = false := by
  cases i with
  | ldStVx x => exact absurd rfl (h x)
  | _ => rfl

theorem dt_of_exec_ldDtVx {x : RegIx} {s t : State} (h : exec (.ldDtVx x) s = .next t) :
    t.dt = s.readV x := by
  cases h; rfl

theorem st_of_exec_ldStVx {x : RegIx} {s t : State} (h : exec (.ldStVx x) s = .next t) :
    t.st = s.readV x := by
  cases h; rfl

/-- Settles O10: the two endings without a fault are ticks, of the timers as the instruction left them. -/
theorem stepTicksBothTimers : Obligations.StepTicksBothTimers := by
  intro s t hs h hf
  cases step_ends hs h with
  | fetchFault => cases hf
  | instrFault => cases hf
  | undefined _ hd => simp [hd]
  | completed i u _ hd hexec _ hframe =>
    simp only [hd, State.tick_dt, State.tick_st, tickByte_toNat]
    constructor
    · split
      · next x hx => cases hx; rw [dt_of_exec_ldDtVx hexec]; rfl
      · next hx => rw [hframe.delayTimer (touches_delayTimer fun x hi => hx x (hi ▸ rfl))]; rfl
    · split
      · next x hx => cases hx; rw [st_of_exec_ldStVx hexec]; rfl
      · next hx => rw [hframe.soundTimer (touches_soundTimer fun x hi => hx x (hi ▸ rfl))]; rfl

/-! The next pc (R78). -/

/-- `Skip` under a condition, else `Next`. -/
def skipWhen (c : Prop) [Decidable c] : NextPc := if c then .skip else .next

theorem target_skipWhen (c : Prop) [Decidable c] (a : Word) :
    (skipWhen c).target a = if c then a + 4 else a + 2 := by
  unfold skipWhen; split <;> rfl

theorem skipWhen_ne_jump (c : Prop) [Decidable c] (w : Word) : skipWhen c ≠ .jump w := by
  unfold skipWhen; split <;> nofun

/-- The next-pc outcome with which each instruction ends when it raises no fault (R78). -/
def outcomeOf (s : State) : Instr → NextPc
  | .ret => .jump (s.slot (s.sp - 1))
  | .jp nnn | .call nnn => .jump (zext12 nnn)
  | .jpV0 nnn => .jump (indexedTarget nnn (s.readV 0))
  | .seImm x kk => skipWhen (s.readV x = kk)
  | .sneImm x kk => skipWhen (s.readV x ≠ kk)
  | .seReg x y => skipWhen (s.readV x = s.readV y)
  | .sneReg x y => skipWhen (s.readV x ≠ s.readV y)
  | .skp x => skipWhen (s.testKey (s.readV x) = .latch true)
  | .sknp x => skipWhen (s.testKey (s.readV x) = .latch false)
  | .ldVxK _ => if ∃ k : Fin 16, s.pressed k.val = true then .next else .stay
  | _ => .next

/-- If the meaning completes, it leaves pc at `p`. -/
def LeavesPc (p : Word) (r : Result) : Prop := ∀ t, r = .next t → t.fault = none → t.pc = p

theorem leavesPc_raise (p : Word) (f : Fault) (s : State) : LeavesPc p (raise f s) := by
  intro t h hf
  cases h
  cases hf

theorem leavesPc_finish {s u : State} (hu : u.pc = s.pc) (o : NextPc) :
    LeavesPc (o.target s.pc) (finish o u) := by
  intro t h _
  cases h
  exact congrArg o.target hu

theorem leavesPc_afterCheck {p : Word} {s : State} {go : Result} (bad : Option Nat) (h : LeavesPc p go) :
    LeavesPc p (afterCheck bad s go) := by
  cases bad with
  | none => exact h
  | some a => exact leavesPc_raise p _ s

theorem leavesPc_skipIf {c : Bool} {p : Prop} [Decidable p] (h : c = true ↔ p) (s : State) :
    LeavesPc ((skipWhen p).target s.pc) (skipIf c s) := by
  simp only [skipWhen, ← h]
  exact leavesPc_finish rfl _

theorem State.lowestKey_isSome {s : State} :
    s.lowestKey.isSome = true ↔ ∃ k : Fin 16, s.pressed k.val = true := by
  rw [← not_iff_not, Bool.not_eq_true, Option.isSome_eq_false_iff, Option.isNone_iff_eq_none,
    State.lowestKey_eq_none]
  simp only [not_exists, Bool.not_eq_true]
  refine ⟨fun h k => h k.val, fun h k => ?_⟩
  by_cases hk : k < 16
  · exact h ⟨k, hk⟩
  · exact dif_neg hk

/-- The table of R78: an instruction that completes leaves pc at the target of its outcome. -/
theorem exec_leavesPc (i : Instr) (s : State) : LeavesPc ((outcomeOf s i).target s.pc) (exec i s) := by
  cases i with
  | cls => exact leavesPc_finish rfl _
  | ret =>
    simp only [exec, execRet]
    split
    · exact leavesPc_raise _ _ s
    · exact leavesPc_finish (State.pop_pc s) _
  | call nnn =>
    simp only [exec, execCall]
    split
    · exact leavesPc_raise _ _ s
    · exact leavesPc_finish (State.push_pc s _) _
  | jp nnn | jpV0 nnn | ldI nnn => exact leavesPc_finish rfl _
  | seImm x kk => exact leavesPc_skipIf beq_iff_eq s
  | sneImm x kk => exact leavesPc_skipIf bne_iff_ne s
  | seReg x y => exact leavesPc_skipIf beq_iff_eq s
  | sneReg x y => exact leavesPc_skipIf bne_iff_ne s
  | ldImm x kk | addImm x kk | rnd x kk => exact leavesPc_finish rfl _
  | ldReg x y | orReg x y | andReg x y | xorReg x y | addReg x y => exact leavesPc_finish rfl _
  | sub x y | shr x y | subn x y | shl x y => exact leavesPc_finish (State.flagThenResult_pc ..) _
  | addI x | ldF x | ldVxDt x | ldDtVx x | ldStVx x => exact leavesPc_finish rfl _
  | drw x y n => exact leavesPc_afterCheck _ (leavesPc_finish (State.afterDraw_pc ..) _)
  | ldB x | ldMemVx x => exact leavesPc_afterCheck _ (leavesPc_finish (State.storeBytes_pc ..) _)
  | ldVxMem x => exact leavesPc_afterCheck _ (leavesPc_finish rfl _)
  | skp x =>
    simp only [exec, execSkp, outcomeOf]
    cases s.testKey (s.readV x) with
    | outOfRange => exact leavesPc_raise _ _ s
    | latch p => exact leavesPc_skipIf (by simp) s
  | sknp x =>
    simp only [exec, execSknp, outcomeOf]
    cases s.testKey (s.readV x) with
    | outOfRange => exact leavesPc_raise _ _ s
    | latch p => cases p <;> exact leavesPc_finish rfl _
  | ldVxK x =>
    simp only [exec, execLdVxK, outcomeOf, ← State.lowestKey_isSome]
    cases s.lowestKey with
    | none => exact leavesPc_finish rfl _
    | some k => exact leavesPc_finish (State.writeV_pc s x _) _

/-! How far the next pc can be (R23): a fetched instruction lies below 0xFFF, a popped address is at most
0x1000 under the invariant, and the farthest target of a jump is 0xFFF + 0xFF. -/

theorem NextPc.target_le {o : NextPc} {a : Word} (ha : a.toNat + 1 < 4096)
    (hjump : ∀ w, o = .jump w → w.toNat ≤ 0x10FE) : (o.target a).toNat ≤ 0x10FE := by
  cases o with
  | next => simp only [target]; bv_omega
  | skip => simp only [target]; bv_omega
  | jump w => exact hjump w rfl
  | stay => simp only [target]; omega

theorem outcomeOf_jump_le {s : State} {i : Instr} {w : Word} (hinv : Inv s) (h : outcomeOf s i = .jump w) :
    w.toNat ≤ 0x10FE := by
  cases i with
  | ret =>
    cases h
    exact (hinv.slots _).trans (by decide)
  | jp nnn | call nnn =>
    cases h
    simp only [zext12]; bv_omega
  | jpV0 nnn =>
    cases h
    simp only [indexedTarget, zext12, zext8]; bv_omega
  | ldVxK x =>
    simp only [outcomeOf] at h
    split at h <;> cases h
  | seImm x kk | sneImm x kk => exact absurd h (skipWhen_ne_jump _ w)
  | seReg x y | sneReg x y => exact absurd h (skipWhen_ne_jump _ w)
  | skp x | sknp x => exact absurd h (skipWhen_ne_jump _ w)
  | _ => cases h

/-- Settles O11: an undefined word advances by 2, and an instruction that completes leaves pc at the target
of its outcome. -/
theorem nextPcOfEachInstruction : Obligations.NextPcOfEachInstruction := by
  intro s t hs h hf
  cases step_ends hs.1 h with
  | fetchFault => cases hf
  | instrFault => cases hf
  | undefined hpc hd =>
    rw [hd]
    exact ⟨rfl, fun _ => NextPc.target_le (o := .next) hpc nofun⟩
  | completed i u hpc hd hexec hfault _ =>
    have htarget : u.tick.pc = (outcomeOf s i).target s.pc :=
      exec_leavesPc i (latchOpcode s) u hexec hfault
    rw [hd, htarget]
    refine ⟨?table, fun hinv => NextPc.target_le hpc fun w => outcomeOf_jump_le hinv⟩
    case table =>
      cases i with
      | seImm x kk | sneImm x kk => exact target_skipWhen _ _
      | seReg x y | sneReg x y => exact target_skipWhen _ _
      | skp x | sknp x => exact target_skipWhen _ _
      | ldVxK x => simp only [outcomeOf]; split <;> rfl
      | _ => rfl

end Sys2Proof.Machine
end

section
/-!
Control transfer (spec/41_control_flow.md R83 to R91): what the words decode to, one equation per way a
return or a call ends, and the skips settled once for `skipIf`.
-/

namespace Sys2Proof

/-! The words (R66, R68). A word of family 5 or 9 is an instruction only when its low digit is 0. -/

section Words
variable (x y : RegIx) (n : Nibble) (kk : Byte) (nnn : Imm12)

theorem decodeWord_jp : decodeWord (formatNnn 0x1#4 nnn) = some (.jp nnn) := by simp [decodeWord]

theorem decodeWord_call : decodeWord (formatNnn 0x2#4 nnn) = some (.call nnn) := by simp [decodeWord]

theorem decodeWord_jpV0 : decodeWord (formatNnn 0xB#4 nnn) = some (.jpV0 nnn) := by simp [decodeWord]

theorem decodeWord_seImm : decodeWord (formatXkk 0x3#4 x kk) = some (.seImm x kk) := by simp [decodeWord]

theorem decodeWord_sneImm : decodeWord (formatXkk 0x4#4 x kk) = some (.sneImm x kk) := by
  simp [decodeWord]

theorem decodeWord_family5 :
    decodeWord (formatXyn 0x5#4 x y n) = if n = 0 then some (.seReg x y) else none := by
  simp [decodeWord]

theorem decodeWord_family9 :
    decodeWord (formatXyn 0x9#4 x y n) = if n = 0 then some (.sneReg x y) else none := by
  simp [decodeWord]

end Words

/-! The extended operands as natural numbers. -/

@[simp] theorem zext12_toNat (a : Imm12) : (zext12 a).toNat = a.toNat :=
  BitVec.toNat_setWidth_of_le (by decide)

@[simp] theorem zext8_toNat (b : Byte) : (zext8 b).toNat = b.toNat :=
  BitVec.toNat_setWidth_of_le (by decide)

end Sys2Proof

namespace Sys2Proof.Machine

/-! Jumps (R85, R91). -/

/-- The sum is exact: it is at most 0xFFF + 0xFF (R91). -/
@[simp] theorem indexedTarget_toNat (nnn : Imm12) (v0 : Byte) :
    (indexedTarget nnn v0).toNat = nnn.toNat + v0.toNat := by
  have hfits : (zext12 nnn).toNat + (zext8 v0).toNat < 2 ^ 16 := by
    simp only [zext12_toNat, zext8_toNat]; omega
  rw [indexedTarget, BitVec.toNat_add_of_lt hfits, zext12_toNat, zext8_toNat]

/-- Settles O27: both end in a jump, which sets pc alone, and neither target wraps. -/
theorem jumpsSetThePc : Obligations.JumpsSetThePc := by
  intro nnn s
  refine ⟨decodeWord_jp nnn, decodeWord_jpV0 nnn, ?direct, ?indexed⟩
  case direct => exact ⟨_, rfl, zext12_toNat nnn, (Frame.refl _ s).pc _⟩
  case indexed => exact ⟨_, rfl, indexedTarget_toNat nnn _, (Frame.refl _ s).pc _⟩

/-! Return and call (R84, R86): each only records its fault, or moves the stack pointer and jumps. -/

theorem exec_ret_of_empty {s : State} (h : s.sp = 0) :
    exec .ret s = .next { s with fault := some (.stackUnderflow s.pc) } := if_pos h

theorem exec_ret_of_pos {s : State} (h : 0 < s.sp) :
    exec .ret s = finish (.jump (s.slot (s.sp - 1))) s.pop := if_neg (Nat.ne_of_gt h)

theorem exec_call_of_full {s : State} (nnn : Imm12) (h : s.sp = 16) :
    exec (.call nnn) s = .next { s with fault := some (.stackOverflow s.pc) } :=
  if_pos (Nat.le_of_eq h.symm)

theorem exec_call_of_lt {s : State} (nnn : Imm12) (h : s.sp < 16) :
    exec (.call nnn) s = finish (.jump (zext12 nnn)) (s.push (s.pc + 2)) :=
  if_neg (Nat.not_le_of_lt h)

theorem frame_push (s : State) (w : Word) : Frame { stack := true } s (s.push w) := frame_stack s _ _

theorem frame_pop (s : State) : Frame { stack := true } s s.pop := frame_stack s s.stack _

theorem State.slot_push_same {s : State} (w : Word) (h : s.sp < 16) : (s.push w).slot s.sp = w := by
  rw [State.slot_push, if_pos ⟨rfl, h⟩]

theorem State.slot_push_ne {s : State} (w : Word) {j : Nat} (h : j ≠ s.sp) :
    (s.push w).slot j = s.slot j := by
  rw [State.slot_push, if_neg fun hj => h hj.1]

/-- Settles O26: on an empty stack it only records the fault, else it pops and jumps to the popped slot. -/
theorem returnPopsOrUnderflows : Obligations.ReturnPopsOrUnderflows := by
  refine ⟨by decide, fun s => ⟨exec_ret_of_empty, fun hpos _ => ?pops⟩⟩
  case pops => exact ⟨_, exec_ret_of_pos hpos, State.pop_sp s, rfl, rfl, (frame_pop s).pc _⟩

/-- Settles O28: on a full stack it only records the fault, else it pushes, which writes slot sp alone. -/
theorem callPushesOrOverflows : Obligations.CallPushesOrOverflows := by
  intro nnn s
  refine ⟨decodeWord_call nnn, exec_call_of_full nnn, fun hlt => ?pushes⟩
  case pushes =>
    exact ⟨_, exec_call_of_lt nnn hlt, zext12_toNat nnn, State.push_sp s (s.pc + 2),
      State.slot_push_same (s.pc + 2) hlt, fun _ => State.slot_push_ne (s.pc + 2),
      (frame_push s _).pc _⟩

/-! Skips (R87 to R90): each is `skipIf` of a comparison. -/

theorem skipIf_completes {c : Bool} {p : Prop} [Decidable p] (h : c = true ↔ p) (s : State) :
    ∃ t, skipIf c s = .next t ∧ t.pc = (if p then s.pc + 4 else s.pc + 2) ∧ Frame {} s t := by
  simp only [← target_skipWhen, skipWhen, ← h]
  exact ⟨_, rfl, rfl, (Frame.refl _ s).pc _⟩

theorem skipIf_beq (p q : Byte) (s : State) :
    ∃ t, skipIf (p == q) s = .next t ∧ t.pc = (if p = q then s.pc + 4 else s.pc + 2) ∧ Frame {} s t :=
  skipIf_completes beq_iff_eq s

theorem skipIf_bne (p q : Byte) (s : State) :
    ∃ t, skipIf (p != q) s = .next t ∧ t.pc = (if p = q then s.pc + 2 else s.pc + 4) ∧ Frame {} s t := by
  simpa only [ne_eq, ite_not] using skipIf_completes (bne_iff_ne (a := p) (b := q)) s

/-- Settles O30: both are skips, on Vx compared with kk. -/
theorem skipsOnImmediate : Obligations.SkipsOnImmediate := fun x kk s =>
  ⟨decodeWord_seImm x kk, decodeWord_sneImm x kk, skipIf_beq (s.readV x) kk s,
    skipIf_bne (s.readV x) kk s⟩

/-- Settles O31: the low digit decides the decoding, and both are skips, on Vx compared with Vy. -/
theorem skipsOnRegisters : Obligations.SkipsOnRegisters := fun x y n s =>
  ⟨decodeWord_family5 x y n, decodeWord_family9 x y n, skipIf_beq (s.readV x) (s.readV y) s,
    skipIf_bne (s.readV x) (s.readV y) s⟩

end Sys2Proof.Machine
end

section
/-!
Register loads and arithmetic (spec/42_register_alu.md R92 to R105): what the words decode to, what each
result and flag is as a number, and how a meaning that ends in a register write completes: one lemma for a
plain write, one for R93's flag and then result.
-/

namespace Sys2Proof

/-! The words (R66, R67, R68). Family 8 selects by its low digit. -/

section Words
variable (x y : RegIx) (n : Nibble) (kk : Byte)

theorem decodeWord_ldImm : decodeWord (formatXkk 0x6#4 x kk) = some (.ldImm x kk) := by simp [decodeWord]

theorem decodeWord_addImm : decodeWord (formatXkk 0x7#4 x kk) = some (.addImm x kk) := by
  simp [decodeWord]

theorem decodeWord_rnd : decodeWord (formatXkk 0xC#4 x kk) = some (.rnd x kk) := by simp [decodeWord]

theorem decodeWord_family8 :
    decodeWord (formatXyn 0x8#4 x y n) = decodeFamily8 (formatXyn 0x8#4 x y n) := by simp [decodeWord]

theorem decodeWord_ldReg : decodeWord (formatXyn 0x8#4 x y 0x0#4) = some (.ldReg x y) := by
  simp [decodeWord_family8, decodeFamily8]

theorem decodeWord_orReg : decodeWord (formatXyn 0x8#4 x y 0x1#4) = some (.orReg x y) := by
  simp [decodeWord_family8, decodeFamily8]

theorem decodeWord_andReg : decodeWord (formatXyn 0x8#4 x y 0x2#4) = some (.andReg x y) := by
  simp [decodeWord_family8, decodeFamily8]

theorem decodeWord_xorReg : decodeWord (formatXyn 0x8#4 x y 0x3#4) = some (.xorReg x y) := by
  simp [decodeWord_family8, decodeFamily8]

theorem decodeWord_addReg : decodeWord (formatXyn 0x8#4 x y 0x4#4) = some (.addReg x y) := by
  simp [decodeWord_family8, decodeFamily8]

theorem decodeWord_sub : decodeWord (formatXyn 0x8#4 x y 0x5#4) = some (.sub x y) := by
  simp [decodeWord_family8, decodeFamily8]

theorem decodeWord_shr : decodeWord (formatXyn 0x8#4 x y 0x6#4) = some (.shr x y) := by
  simp [decodeWord_family8, decodeFamily8]

theorem decodeWord_subn : decodeWord (formatXyn 0x8#4 x y 0x7#4) = some (.subn x y) := by
  simp [decodeWord_family8, decodeFamily8]

theorem decodeWord_shl : decodeWord (formatXyn 0x8#4 x y 0xE#4) = some (.shl x y) := by
  simp [decodeWord_family8, decodeFamily8]

end Words

end Sys2Proof

namespace Sys2Proof.Machine

/-! Results and flags as natural numbers (R92, R100 to R104). -/

section Numbers
variable (p q : Byte)

@[simp] theorem addByte_toNat : (addByte p q).toNat = (p.toNat + q.toNat) % 256 :=
  BitVec.toNat_ofNat ..

@[simp] theorem subByte_toNat : (subByte p q).toNat = (p.toNat + 256 - q.toNat) % 256 :=
  BitVec.toNat_ofNat ..

@[simp] theorem shiftRightOne_toNat : (shiftRightOne p).toNat = p.toNat / 2 := by
  rw [shiftRightOne, BitVec.toNat_ushiftRight, Nat.shiftRight_eq_div_pow, Nat.pow_one]

@[simp] theorem shiftLeftOne_toNat : (shiftLeftOne p).toNat = 2 * p.toNat % 256 := by
  rw [shiftLeftOne, BitVec.toNat_shiftLeft, Nat.shiftLeft_eq, Nat.pow_one, Nat.mul_comm]

theorem carryBit_toNat :
    (bool2bit (carryFlag p q)).toNat = if p.toNat + q.toNat > 255 then 1 else 0 := by
  simp [carryFlag]

theorem greaterBit_toNat :
    (bool2bit (greaterFlag p q)).toNat = if p.toNat > q.toNat then 1 else 0 := by
  simp [greaterFlag]

theorem bool2bit_getLsbD_toNat (k : Nat) : (bool2bit (p.getLsbD k)).toNat = p.toNat / 2 ^ k % 2 := by
  rw [← Nat.toNat_testBit, BitVec.getLsbD]
  cases p.toNat.testBit k <;> rfl

theorem lowBit_toNat : (bool2bit (shiftedOutRight p)).toNat = p.toNat % 2 := by
  rw [shiftedOutRight, bool2bit_getLsbD_toNat, Nat.pow_zero, Nat.div_one]

theorem highBit_toNat : (bool2bit (shiftedOutLeft p)).toNat = p.toNat / 128 := by
  rw [shiftedOutLeft, bool2bit_getLsbD_toNat]; omega

end Numbers

/-- Reading a register does not read pc. -/
theorem State.readV_setPc (s : State) (a : Word) (r : RegIx) :
    ({ s with pc := a } : State).readV r = s.readV r := rfl

/-! A write of one register, and then the next instruction (R94 to R99). -/

theorem writeV_completes (s : State) (x : RegIx) (b : Byte) :
    ∃ t, finish .next (s.writeV x b) = .next t ∧ t.readV x = b ∧ t.pc = s.pc + 2 ∧
      Frame { regs := [x] } s t :=
  ⟨_, rfl, State.readV_writeV_same s x b, rfl, (frame_writeV s x b).pc _⟩

/-- A byte operation that acts on each bit by itself. -/
theorem bitwise_completes {op : Byte → Byte → Byte} {bitOp : Bool → Bool → Bool}
    (hop : ∀ p q k, (op p q).getLsbD k = bitOp (p.getLsbD k) (q.getLsbD k)) (x y : RegIx) (s : State) :
    ∃ t, finish .next (s.writeV x (op (s.readV x) (s.readV y))) = .next t ∧
      (∀ k, (t.readV x).getLsbD k = bitOp ((s.readV x).getLsbD k) ((s.readV y).getLsbD k)) ∧
      t.pc = s.pc + 2 ∧ Frame { regs := [x] } s t := by
  obtain ⟨t, hnext, hx, hpc, hframe⟩ := writeV_completes s x (op (s.readV x) (s.readV y))
  exact ⟨t, hnext, fun k => hx ▸ hop _ _ k, hpc, hframe⟩

/-! R93: the flag is written first and the result second, computed from VF as `P_VF_ALIAS` says. -/

/-- V[r] as the second assignment reads it, the flag written before it being `f` (R93). -/
def State.operandAfterFlag (s : State) (f : Nat) (r : RegIx) : Nat :=
  if s.params.vfAlias = .sequential ∧ r = 15 then f else (s.readV r).toNat

/-- The state that `flagThenResult` computes the result from holds these operands. -/
theorem State.operandAfterFlag_eq (s : State) (c : Bool) (r : RegIx) :
    ((if s.params.vfAlias = .sequential then s.writeFlag c else s).readV r).toNat =
      s.operandAfterFlag (bool2bit c).toNat r := by
  unfold State.operandAfterFlag
  by_cases hseq : s.params.vfAlias = .sequential
  · simp only [hseq, if_true, true_and, State.readV_writeFlag]
    split <;> rfl
  · simp only [hseq, if_false, false_and]

theorem flagThenResult_completes (s : State) (c : Bool) (x : RegIx) (result : State → Byte) :
    ∃ t, finish .next (s.flagThenResult c x result) = .next t ∧
      t.readV x = result (if s.params.vfAlias = .sequential then s.writeFlag c else s) ∧
      (x ≠ 15 → t.readV 15 = bool2bit c) ∧ t.pc = s.pc + 2 ∧ Frame { regs := [x, 15] } s t := by
  refine ⟨_, rfl, ?result, fun hx => ?flag, ?pc, (frame_flagThenResult s c x result).pc _⟩
  case result => exact (State.readV_flagThenResult ..).trans (if_pos rfl)
  case flag => exact (State.readV_flagThenResult ..).trans ((if_neg (Ne.symm hx)).trans (if_pos rfl))
  case pc => exact congrArg (· + 2) (State.flagThenResult_pc s c x result)

/-- V[p] - V[q] into V[x], with the flag of V[p] > V[q] (R101, R103). -/
theorem subtract_completes (s : State) (x p q : RegIx) {f : Nat}
    (hf : (bool2bit (greaterFlag (s.readV p) (s.readV q))).toNat = f) :
    ∃ t, finish .next (s.flagThenResult (greaterFlag (s.readV p) (s.readV q)) x
        fun r => subByte (r.readV p) (r.readV q)) = .next t ∧
      (t.readV x).toNat = (s.operandAfterFlag f p + 256 - s.operandAfterFlag f q) % 256 ∧
      (x ≠ 15 → (t.readV 15).toNat = f) ∧ t.pc = s.pc + 2 ∧ Frame { regs := [x, 15] } s t := by
  obtain ⟨t, hnext, hx, hflag, hpc, hframe⟩ := flagThenResult_completes s
    (greaterFlag (s.readV p) (s.readV q)) x fun r => subByte (r.readV p) (r.readV q)
  refine ⟨t, hnext, ?_, fun h15 => by rw [hflag h15, hf], hpc, hframe⟩
  rw [hx, subByte_toNat, State.operandAfterFlag_eq, State.operandAfterFlag_eq, hf]

/-- V[x] shifted, with the bit shifted out as the flag (R102, R104); `g` is the shift on numbers. -/
theorem shift_completes {shift : Byte → Byte} {g : Nat → Nat} (hg : ∀ p, (shift p).toNat = g p.toNat)
    (s : State) (x : RegIx) {c : Bool} {f : Nat} (hf : (bool2bit c).toNat = f) :
    ∃ t, finish .next (s.flagThenResult c x fun r => shift (r.readV x)) = .next t ∧
      (t.readV x).toNat = g (s.operandAfterFlag f x) ∧
      (x ≠ 15 → (t.readV 15).toNat = f) ∧ t.pc = s.pc + 2 ∧ Frame { regs := [x, 15] } s t := by
  obtain ⟨t, hnext, hx, hflag, hpc, hframe⟩ := flagThenResult_completes s c x fun r => shift (r.readV x)
  refine ⟨t, hnext, ?_, fun h15 => by rw [hflag h15, hf], hpc, hframe⟩
  rw [hx, hg, State.operandAfterFlag_eq, hf]

/-! The obligations. -/

/-- Settles O32: each is one register write, of kk or of the sum. -/
theorem loadAndAddImmediate : Obligations.LoadAndAddImmediate := by
  intro x kk s
  refine ⟨decodeWord_ldImm x kk, decodeWord_addImm x kk, writeV_completes s x kk, ?add⟩
  case add =>
    obtain ⟨t, hnext, hx, hpc, hframe⟩ := writeV_completes s x (addByte (s.readV x) kk)
    exact ⟨t, hnext, hx ▸ addByte_toNat _ kk, hpc, hframe⟩

/-- Settles O33: each is one register write, and the three operations act bit by bit. -/
theorem moveAndBitwise : Obligations.MoveAndBitwise := fun x y s =>
  ⟨decodeWord_ldReg x y, decodeWord_orReg x y, decodeWord_andReg x y, decodeWord_xorReg x y,
    writeV_completes s x (s.readV y),
    bitwise_completes (fun _ _ _ => BitVec.getLsbD_or) x y s,
    bitwise_completes (fun _ _ _ => BitVec.getLsbD_and) x y s,
    bitwise_completes (fun _ _ _ => BitVec.getLsbD_xor) x y s⟩

/-- Settles O34: the sum goes to Vx and then the carry to VF, so for x = 15 the carry stays. -/
theorem addRegistersSetsCarry : Obligations.AddRegistersSetsCarry := by
  intro x y s
  refine ⟨decodeWord_addReg x y, _, rfl, fun hx => ?sum, ?carry, rfl, (frame_addReg s x _ _).pc _⟩
  case sum =>
    rw [State.readV_setPc, State.readV_writeFlag, if_neg hx, State.readV_writeV_same, addByte_toNat]
  case carry =>
    rw [State.readV_setPc, State.readV_writeFlag, if_pos rfl, carryBit_toNat]

/-- Settles O35: both are R93's subtraction, of Vx and Vy or of Vy and Vx; the result is as stated also for
x = y = 15. -/
theorem subtractRegistersSetsFlag : Obligations.SubtractRegistersSetsFlag := by
  intro x y s
  refine ⟨decodeWord_sub x y, decodeWord_subn x y, ?sub, ?subn⟩
  case sub =>
    obtain ⟨t, hnext, hx, hrest⟩ := subtract_completes s x x y (greaterBit_toNat ..)
    exact ⟨t, _, _, _, hnext, rfl, rfl, rfl, fun _ => hx, hrest⟩
  case subn =>
    obtain ⟨t, hnext, hx, hrest⟩ := subtract_completes s x y x (greaterBit_toNat ..)
    exact ⟨t, _, _, _, hnext, rfl, rfl, rfl, fun _ => hx, hrest⟩

/-- Settles O37: both are R93's shift, whose meaning does not name y. -/
theorem shiftsSetFlag : Obligations.ShiftsSetFlag := by
  intro x y s
  refine ⟨decodeWord_shr x y, decodeWord_shl x y, ?right, ?left⟩
  case right =>
    obtain ⟨t, hnext, hrest⟩ :=
      shift_completes (g := (· / 2)) shiftRightOne_toNat s x (lowBit_toNat (s.readV x))
    exact ⟨t, _, _, hnext, rfl, rfl, hrest⟩
  case left =>
    obtain ⟨t, hnext, hrest⟩ :=
      shift_completes (g := (2 * · % 256)) shiftLeftOne_toNat s x (highBit_toNat (s.readV x))
    exact ⟨t, _, _, hnext, rfl, rfl, hrest⟩

/-- Settles O39: one register write of the masked draw, on the state with the draw taken. -/
theorem randomMaskedByImmediate : Obligations.RandomMaskedByImmediate := by
  intro x kk s
  refine ⟨decodeWord_rnd x kk, _, _, rfl, rfl, fun k => ?bits, fun hkk => ?zero, fun hkk => ?ones, rfl, rfl,
    (frame_takeDraw s x _).pc _⟩
  case bits => rw [State.readV_setPc, State.readV_writeV_same, BitVec.getLsbD_and]
  case zero => rw [State.readV_setPc, State.readV_writeV_same, hkk]; exact BitVec.and_zero
  case ones => rw [State.readV_setPc, State.readV_writeV_same, hkk]; exact BitVec.and_allOnes

end Sys2Proof.Machine
end

section
/-!
The index register and memory transfers (spec/43_index_memory.md R106 to R112): what the words decode to, what
each value is as a number, and how the store from I, shared by Fx33 and Fx55, and the load of Fx65 end.
-/

namespace Sys2Proof

/-! The words (R68, R70). Family F selects by its low byte. -/

section Words
variable (x : RegIx) (kk : Byte) (nnn : Imm12)

theorem decodeWord_ldI : decodeWord (formatNnn 0xA#4 nnn) = some (.ldI nnn) := by simp [decodeWord]

theorem decodeWord_familyF :
    decodeWord (formatXkk 0xF#4 x kk) = decodeFamilyF (formatXkk 0xF#4 x kk) := by simp [decodeWord]

theorem decodeWord_addI : decodeWord (formatXkk 0xF#4 x 0x1E#8) = some (.addI x) := by
  simp [decodeWord_familyF, decodeFamilyF]

theorem decodeWord_ldF : decodeWord (formatXkk 0xF#4 x 0x29#8) = some (.ldF x) := by
  simp [decodeWord_familyF, decodeFamilyF]

theorem decodeWord_ldB : decodeWord (formatXkk 0xF#4 x 0x33#8) = some (.ldB x) := by
  simp [decodeWord_familyF, decodeFamilyF]

theorem decodeWord_ldMemVx : decodeWord (formatXkk 0xF#4 x 0x55#8) = some (.ldMemVx x) := by
  simp [decodeWord_familyF, decodeFamilyF]

theorem decodeWord_ldVxMem : decodeWord (formatXkk 0xF#4 x 0x65#8) = some (.ldVxMem x) := by
  simp [decodeWord_familyF, decodeFamilyF]

end Words

end Sys2Proof

namespace Sys2Proof.Machine

/-! Writes of I (R107 to R109). -/

@[simp] theorem addIndex_toNat (i : Word) (p : Byte) :
    (addIndex i p).toNat = (i.toNat + p.toNat) % 65536 := by
  rw [addIndex, BitVec.toNat_add, zext8_toNat]

/-- The product is exact: it is at most 5 * 0xFF (R109). -/
@[simp] theorem glyphBase_toNat (p : Byte) : (glyphBase p).toNat = 5 * p.toNat := by
  have hfits : p.toNat * 5 < 2 ^ 16 := by omega
  rw [glyphBase, BitVec.toNat_mul, zext8_toNat]
  exact (Nat.mod_eq_of_lt hfits).trans (Nat.mul_comm ..)

theorem writeI_completes (s : State) {w : Word} {n : Nat} (hw : w.toNat = n) :
    ∃ t, finish .next (s.writeI w) = .next t ∧ t.i.toNat = n ∧ t.pc = s.pc + 2 ∧
      Frame { index := true } s t :=
  ⟨_, rfl, hw, rfl, (frame_writeI s w).pc _⟩

/-- Settles O41: each is one write of I, of a value that the lemmas above give as a number. -/
theorem indexRegisterWrites : Obligations.IndexRegisterWrites := fun nnn x s =>
  ⟨decodeWord_ldI nnn, decodeWord_addI x, decodeWord_ldF x, writeI_completes s (zext12_toNat nnn),
    writeI_completes s (addIndex_toNat s.i (s.readV x)), writeI_completes s (glyphBase_toNat (s.readV x))⟩

/-! The store from I (R47, R53): it records the lowest bad address, or it stores every byte that is not
dropped. -/

theorem storeFromI_of_out_of_range {bs : List Byte} {s : State} (hne : 0 < bs.length)
    (hout : 4096 < s.base + bs.length) :
    storeFromI bs s = .next { s with fault := some (.addressOutOfRange (max s.base 4096)) } :=
  storeFromI_of_checkStore_some (checkStore_eq_some.mpr (.inl ⟨hne, hout, rfl⟩))

theorem storeFromI_completes {bs : List Byte} {s : State} (hrange : s.base + bs.length ≤ 4096)
    (hfont : s.params.fontWrite = .fault → 80 ≤ s.base) :
    ∃ t, storeFromI bs s = .next t ∧ (∀ a, t.readByte a = (s.storeBytes s.base bs).readByte a) ∧
      t.pc = s.pc + 2 ∧ Frame { memory := true } s t := by
  have hcheck : checkStore s.params.fontWrite s.base bs.length = none :=
    checkStore_eq_none.mpr ⟨.inr hrange, fun ⟨hfault, _, hlow⟩ => absurd (hfont hfault) (Nat.not_le.mpr hlow)⟩
  refine ⟨_, storeFromI_of_checkStore_none hcheck, fun _ => rfl, ?pc, (frame_storeBytes s _ bs).pc _⟩
  case pc => exact congrArg (· + 2) (State.storeBytes_pc s s.base bs)

theorem State.readByte_storeBytes_outside {s : State} {base : Nat} {bs : List Byte} {a : Nat}
    (h : a < base ∨ base + bs.length ≤ a) : (s.storeBytes base bs).readByte a = s.readByte a := by
  rw [State.readByte_storeBytes, if_neg (by omega)]

/-! Fx33 (R110). -/

section Digits
variable (p : Byte)

theorem bcdDigits_hundreds : (bcdDigits p)[0].toNat = p.toNat / 100 :=
  Nat.mod_eq_of_lt (by omega)

theorem bcdDigits_tens : (bcdDigits p)[1].toNat = p.toNat / 10 % 10 :=
  Nat.mod_eq_of_lt (by omega)

theorem bcdDigits_ones : (bcdDigits p)[2].toNat = p.toNat % 10 :=
  Nat.mod_eq_of_lt (by omega)

end Digits

theorem readByte_storeBytes_bcdDigits (s : State) (base : Nat) (p : Byte) (a : Nat) :
    ((s.storeBytes base (bcdDigits p)).readByte a).toNat =
      if s.params.fontWrite = .ignore ∧ a < 80 then (s.readByte a).toNat
      else if a = base then p.toNat / 100
      else if a = base + 1 then p.toNat / 10 % 10
      else if a = base + 2 then p.toNat % 10
      else (s.readByte a).toNat := by
  by_cases hdropped : s.params.fontWrite = .ignore ∧ a < 80
  · rw [if_pos hdropped, State.readByte_storeBytes_dropped (storeDropped_eq_true.mpr hdropped)]
  rw [if_neg hdropped]
  have hkept : storeDropped s.params.fontWrite a = false :=
    Bool.eq_false_iff.mpr (mt storeDropped_eq_true.mp hdropped)
  have hdigit (k : Nat) (hk : k < 3) (ha : a = base + k) :
      (s.storeBytes base (bcdDigits p)).readByte a = (bcdDigits p)[k] := by
    subst ha
    exact State.readByte_storeBytes_stored hk hkept
  split_ifs with h0 h1 h2
  · rw [hdigit 0 (by decide) h0, bcdDigits_hundreds]
  · rw [hdigit 1 (by decide) h1, bcdDigits_tens]
  · rw [hdigit 2 (by decide) h2, bcdDigits_ones]
  · rw [State.readByte_storeBytes_outside (by rw [bcdDigits_length]; omega)]

/-- Settles O42: Fx33 is the store from I of the three digits, so it stores them or records the fault of the
store's check. -/
theorem bcdStoresThreeDigits : Obligations.BcdStoresThreeDigits := by
  intro x s
  have hlen := bcdDigits_length (s.readV x)
  refine ⟨decodeWord_ldB x, fun hrange hfont => ?stores, fun hout => ?outOfRange, fun hfw hlow => ?fontArea⟩
  case stores =>
    obtain ⟨t, hnext, hread, hpc, hframe⟩ :=
      storeFromI_completes (bs := bcdDigits (s.readV x)) (by omega) hfont
    exact ⟨t, hnext, fun a => hread a ▸ readByte_storeBytes_bcdDigits s s.base _ a, hpc, hframe⟩
  case outOfRange => exact storeFromI_of_out_of_range (by omega) (by omega)
  case fontArea => exact storeFromI_of_fault (by omega) (by omega) hfw hlow

/-! Fx55 (R111). -/

theorem State.regsUpTo_getElem (s : State) {x r : RegIx} (h : r ≤ x)
    (hr : r.val < (s.regsUpTo x).length) : (s.regsUpTo x)[r.val] = s.readV r :=
  (List.getD_eq_getElem _ 0 hr).symm.trans (s.regsUpTo_getD x r h)

/-- Settles O43: Fx55 is the store from I of V0..Vx, so it stores them or records the fault of the store's
check. -/
theorem storeRegistersFromIndex : Obligations.StoreRegistersFromIndex := by
  intro x s
  have hlen := s.regsUpTo_length x
  refine ⟨decodeWord_ldMemVx x, fun hrange hfont => ?stores, fun hout => ?outOfRange,
    fun hfw hlow => ?fontArea⟩
  case stores =>
    obtain ⟨t, hnext, hread, hpc, hframe⟩ :=
      storeFromI_completes (bs := s.regsUpTo x) (by omega) hfont
    refine ⟨t, hnext, fun r hr hkept => ?stored, fun a ha => ?unchanged, hpc, hframe⟩
    case stored =>
      have hr' : r.val < (s.regsUpTo x).length := by rw [hlen]; exact Nat.lt_succ_of_le hr
      rw [hread, State.readByte_storeBytes_stored hr'
        (Bool.eq_false_iff.mpr (mt storeDropped_eq_true.mp hkept)), s.regsUpTo_getElem hr]
    case unchanged =>
      rw [hread]
      rcases ha with hbelow | habove | hdropped
      · exact State.readByte_storeBytes_outside (.inl hbelow)
      · exact State.readByte_storeBytes_outside (.inr (by omega))
      · exact State.readByte_storeBytes_dropped (storeDropped_eq_true.mpr hdropped)
  case outOfRange => exact storeFromI_of_out_of_range (by omega) (by omega)
  case fontArea =>
    have hx := x.isLt
    exact storeFromI_of_fault (by omega) (by omega) hfw hlow

/-! Fx65 (R112): it records the lowest address out of range, or it loads the registers. -/

theorem exec_ldVxMem (x : RegIx) (s : State) :
    exec (.ldVxMem x) s =
      afterCheck (checkRange s.base (x.val + 1)) s (finish .next (s.loadRegs s.base x)) := rfl

theorem exec_ldVxMem_of_out_of_range {x : RegIx} {s : State} (h : 4095 < s.base + x.val) :
    exec (.ldVxMem x) s = .next { s with fault := some (.addressOutOfRange (max s.base 4096)) } := by
  have hcheck : checkRange s.base (x.val + 1) = some (max s.base 4096) :=
    checkRange_eq_some.mpr ⟨Nat.succ_pos _, by omega, rfl⟩
  rw [exec_ldVxMem, hcheck]; rfl

theorem exec_ldVxMem_of_in_range {x : RegIx} {s : State} (h : s.base + x.val ≤ 4095) :
    exec (.ldVxMem x) s = finish .next (s.loadRegs s.base x) := by
  have hcheck : checkRange s.base (x.val + 1) = none := checkRange_eq_none.mpr (.inr (by omega))
  rw [exec_ldVxMem, hcheck]; rfl

/-- Settles O45: in range every register up to Vx is written from memory and no other is. -/
theorem loadRegistersFromIndex : Obligations.LoadRegistersFromIndex := by
  intro x s
  refine ⟨decodeWord_ldVxMem x, fun hrange => ?loads, exec_ldVxMem_of_out_of_range⟩
  case loads =>
    refine ⟨_, exec_ldVxMem_of_in_range hrange, fun r hr => ?loaded, fun r hr => ?kept, rfl,
      (frame_loadRegs s s.base x).pc _⟩
    case loaded => rw [State.readV_setPc, State.readV_loadRegs, if_pos hr]
    case kept => rw [State.readV_setPc, State.readV_loadRegs, if_neg (not_le_of_gt hr)]

end Sys2Proof.Machine
end

section
/-!
The timer instructions (spec/44_timers.md R114 to R116), before the tick of their step: the word each decodes
from and the one component it writes.
-/

namespace Sys2Proof

section Words
variable (x : RegIx)

theorem decodeWord_ldVxDt : decodeWord (formatXkk 0xF#4 x 0x07#8) = some (.ldVxDt x) := by
  simp [decodeWord_familyF, decodeFamilyF]

theorem decodeWord_ldDtVx : decodeWord (formatXkk 0xF#4 x 0x15#8) = some (.ldDtVx x) := by
  simp [decodeWord_familyF, decodeFamilyF]

theorem decodeWord_ldStVx : decodeWord (formatXkk 0xF#4 x 0x18#8) = some (.ldStVx x) := by
  simp [decodeWord_familyF, decodeFamilyF]

end Words

end Sys2Proof

namespace Sys2Proof.Machine

theorem exec_ldVxDt (x : RegIx) (s : State) : exec (.ldVxDt x) s = finish .next (s.writeV x s.dt) := rfl

theorem exec_ldDtVx (x : RegIx) (s : State) :
    exec (.ldDtVx x) s = finish .next { s with dt := s.readV x } := rfl

theorem exec_ldStVx (x : RegIx) (s : State) :
    exec (.ldStVx x) s = finish .next { s with st := s.readV x } := rfl

/-- Settles O48: each writes one component and advances, and the rest is framed. -/
theorem timerInstructions : Obligations.TimerInstructions := by
  intro x s
  refine ⟨decodeWord_ldVxDt x, decodeWord_ldDtVx x, decodeWord_ldStVx x, ?readsDelay, ?writesDelay,
    ?writesSound⟩
  case readsDelay => exact exec_ldVxDt x s ▸ writeV_completes s x s.dt
  case writesDelay => exact ⟨_, exec_ldDtVx x s, rfl, rfl, (frame_dt s _).pc _⟩
  case writesSound => exact ⟨_, exec_ldStVx x s, rfl, rfl, (frame_st s _).pc _⟩

end Sys2Proof.Machine
end

section
/-!
Display and input (spec/45_display_input.md R117 to R123): what the words decode to, the two ways Dxyn ends, what
the key test of Ex9E and ExA1 finds, and the poll of Fx0A.
-/

namespace Sys2Proof

/-! The words (R66, R69, R70). Family E selects by its low byte. -/

section Words
variable (x y : RegIx) (n : Nibble) (kk : Byte)

theorem decodeWord_drw : decodeWord (formatXyn 0xD#4 x y n) = some (.drw x y n.toNat) := by
  simp [decodeWord]

theorem decodeWord_familyE :
    decodeWord (formatXkk 0xE#4 x kk) = decodeFamilyE (formatXkk 0xE#4 x kk) := by simp [decodeWord]

theorem decodeWord_skp : decodeWord (formatXkk 0xE#4 x 0x9E#8) = some (.skp x) := by
  simp [decodeWord_familyE, decodeFamilyE]

theorem decodeWord_sknp : decodeWord (formatXkk 0xE#4 x 0xA1#8) = some (.sknp x) := by
  simp [decodeWord_familyE, decodeFamilyE]

theorem decodeWord_ldVxK : decodeWord (formatXkk 0xF#4 x 0x0A#8) = some (.ldVxK x) := by
  simp [decodeWord_familyF, decodeFamilyF]

end Words

end Sys2Proof

namespace Sys2Proof.Machine

/-! 00E0 (R117). -/

@[simp] theorem Display.cell_replicate_zero (r c : Nat) :
    Display.cell (Vector.replicate Config.displayH 0) r c = false := by
  unfold Display.cell
  split
  · rw [Vector.getElem_replicate]; exact BitVec.getLsbD_zero
  · rfl

theorem exec_cls (s : State) :
    exec .cls s = finish .next { s with disp := Vector.replicate Config.displayH 0 } := rfl

/-- Settles O50: it writes the buffer of zeros and nothing else. -/
theorem clearScreen : Obligations.ClearScreen :=
  ⟨by decide, fun s => ⟨_, exec_cls s, Display.cell_replicate_zero, rfl, (frame_disp s _).pc _⟩⟩

/-! Dxyn (R118, R119): it records the lowest address out of range, or it draws. -/

theorem exec_drw (x y : RegIx) (n : Nat) (s : State) :
    exec (.drw x y n) s = afterCheck (checkRange s.base n) s (finish .next (s.afterDraw x y n)) := rfl

theorem exec_drw_of_out_of_range {x y : RegIx} {n : Nat} {s : State} (hn : 0 < n) (h : 4096 < s.base + n) :
    exec (.drw x y n) s = .next { s with fault := some (.addressOutOfRange (max s.base 4096)) } := by
  rw [exec_drw, checkRange_eq_some.mpr ⟨hn, h, rfl⟩]; rfl

theorem exec_drw_of_in_range {x y : RegIx} {n : Nat} {s : State} (h : n = 0 ∨ s.base + n ≤ 4096) :
    exec (.drw x y n) s = finish .next (s.afterDraw x y n) := by
  rw [exec_drw, checkRange_eq_none.mpr h]; rfl

section AfterDraw
variable (s : State) (x y : RegIx) {n : Nat} (hn : n ≤ 32)
include hn

theorem State.cell_afterDraw {r c : Nat} (hr : r < 32) (hc : c < 64) :
    (s.afterDraw x y n).disp.cell r c =
      (s.disp.cell r c != spriteBit s (s.readV x).toNat (s.readV y).toNat n r c) := by
  rw [State.afterDraw_disp, s.cell_drawn x y n hn hr hc]

theorem State.readV_afterDraw_of_collides (h : Collides s (s.readV x).toNat (s.readV y).toNat n) :
    (s.afterDraw x y n).readV 15 = 1 := by
  rw [State.readV_afterDraw, if_pos ⟨(s.collide_drawn x y n hn).mpr h, rfl⟩]

theorem State.readV_afterDraw_of_not_collides
    (h : ¬ Collides s (s.readV x).toNat (s.readV y).toNat n) :
    (s.afterDraw x y n).readV 15 = s.readV 15 := by
  rw [State.readV_afterDraw, if_neg fun hc => h ((s.collide_drawn x y n hn).mp hc.1)]

end AfterDraw

/-- Settles O51: in range it is the draw of at most 15 rows, whose cells and collision the lemmas above give. -/
theorem drawXorsSprite : Obligations.DrawXorsSprite := by
  intro x y n s hn
  have hrows : n ≤ 32 := by omega
  refine ⟨?word, fun hrange => ?draws, exec_drw_of_out_of_range⟩
  case word => rw [decodeWord_drw, BitVec.toNat_ofNat, Nat.mod_eq_of_lt hn]
  case draws =>
    exact ⟨_, exec_drw_of_in_range hrange, fun _ _ => s.cell_afterDraw x y hrows,
      s.readV_afterDraw_of_collides x y hrows, s.readV_afterDraw_of_not_collides x y hrows,
      congrArg (· + 2) (s.afterDraw_pc x y n), (frame_afterDraw s x y n).pc _⟩

/-! Ex9E and ExA1 (R120 to R122): what the key test finds, and the skip on it. -/

theorem State.testKey_eq_outOfRange {s : State} {k : Byte} :
    s.testKey k = .outOfRange ↔ 15 < k.toNat ∧ s.params.keyIndex = .fault := by
  unfold State.testKey
  by_cases hk : k.toNat ≤ 15
  · have hlt : k.toNat < Config.numKeys := Nat.lt_succ_of_le hk
    simp [hlt, Nat.not_lt.mpr hk]
  · have hge : ¬ k.toNat < Config.numKeys := fun h => hk (Nat.le_of_lt_succ h)
    cases s.params.keyIndex <;> simp [hge, Nat.not_le.mp hk]

theorem State.testKey_eq_latch {s : State} {k : Byte} {p : Bool} :
    s.testKey k = .latch p ↔
      k.toNat ≤ 15 ∧ s.pressed k.toNat = p ∨
      15 < k.toNat ∧ s.params.keyIndex = .lowNibble ∧ s.pressed (k.toNat % 16) = p ∨
      15 < k.toNat ∧ s.params.keyIndex = .notPressed ∧ p = false := by
  unfold State.testKey
  by_cases hk : k.toNat ≤ 15
  · have hlt : k.toNat < Config.numKeys := Nat.lt_succ_of_le hk
    simp [hlt, hk, Nat.not_lt.mpr hk]
  · have hge : ¬ k.toNat < Config.numKeys := fun h => hk (Nat.le_of_lt_succ h)
    cases s.params.keyIndex <;> simp [hge, hk, Nat.not_le.mp hk, eq_comm]

section KeyTest
variable {x : RegIx} {s : State}

theorem exec_skp_of_outOfRange (h : s.testKey (s.readV x) = .outOfRange) :
    exec (.skp x) s = .next { s with fault := some (.keyIndexOutOfRange s.pc (s.readV x)) } := by
  simp only [exec, execSkp, h]; rfl

theorem exec_sknp_of_outOfRange (h : s.testKey (s.readV x) = .outOfRange) :
    exec (.sknp x) s = .next { s with fault := some (.keyIndexOutOfRange s.pc (s.readV x)) } := by
  simp only [exec, execSknp, h]; rfl

theorem exec_skp_of_latch {p : Bool} (h : s.testKey (s.readV x) = .latch p) :
    exec (.skp x) s = skipIf p s := by
  simp only [exec, execSkp, h]; rfl

theorem exec_sknp_of_latch {p : Bool} (h : s.testKey (s.readV x) = .latch p) :
    exec (.sknp x) s = skipIf (!p) s := by
  simp only [exec, execSknp, h]
  cases p <;> rfl

end KeyTest

theorem skipIf_not_completes (p : Bool) (s : State) :
    ∃ t, skipIf (!p) s = .next t ∧ t.pc = (if p then s.pc + 2 else s.pc + 4) ∧ Frame {} s t := by
  simpa only [ite_not] using skipIf_completes (c := !p) (p := ¬ p = true) (by simp) s

/-- Settles O53: both are skips on the level the key test finds, or only record its fault. -/
theorem keySkips : Obligations.KeySkips := by
  intro x s
  refine ⟨decodeWord_skp x, decodeWord_sknp x, fun p hp => ?skips, fun hk hsetting => ?faults⟩
  case skips =>
    have hlatch : s.testKey (s.readV x) = .latch p := State.testKey_eq_latch.mpr hp
    rw [exec_skp_of_latch hlatch, exec_sknp_of_latch hlatch]
    exact ⟨skipIf_completes Iff.rfl s, skipIf_not_completes p s⟩
  case faults =>
    have hout : s.testKey (s.readV x) = .outOfRange := State.testKey_eq_outOfRange.mpr ⟨hk, hsetting⟩
    exact ⟨exec_skp_of_outOfRange hout, exec_sknp_of_outOfRange hout⟩

/-! Fx0A (R123). -/

theorem State.lt_of_pressed {s : State} {k : Nat} (h : s.pressed k = true) : k < 16 := by
  by_contra hk
  rw [State.pressed, dif_neg hk] at h
  cases h

theorem exec_ldVxK_of_lowestKey {s : State} {k : Nat} (x : RegIx) (h : s.lowestKey = some k) :
    exec (.ldVxK x) s = finish .next (s.writeV x (BitVec.ofNat 8 k)) := by
  simp only [exec, execLdVxK, h]

theorem exec_ldVxK_of_no_key {s : State} (x : RegIx) (h : s.lowestKey = none) :
    exec (.ldVxK x) s = .next s := by
  simp only [exec, execLdVxK, h]; rfl

/-- Settles O54: the lowest pressed key is written and fits a byte; without one the poll ends in `Stay`. -/
theorem keyWaitPolls : Obligations.KeyWaitPolls := by
  intro x s
  refine ⟨decodeWord_ldVxK x, fun k hk hlower => ?pressed,
    fun hnone => exec_ldVxK_of_no_key x (State.lowestKey_eq_none.mpr hnone)⟩
  case pressed =>
    have hfits : (BitVec.ofNat 8 k).toNat = k :=
      Nat.mod_eq_of_lt ((State.lt_of_pressed hk).trans (by decide))
    obtain ⟨t, hnext, hx, hpc, hframe⟩ := writeV_completes s x (BitVec.ofNat 8 k)
    rw [exec_ldVxK_of_lowestKey x (State.lowestKey_eq_some.mpr ⟨hk, hlower⟩)]
    exact ⟨t, hnext, hx ▸ hfits, hpc, hframe⟩

end Sys2Proof.Machine
end

section
/-!
The faults of the block (spec/60_exceptions.md R124). `faultOf` is the check each meaning makes: what `exec`
leaves in the fault status is read off it once, for all instructions, and it is R124's table `Raises`.
-/

namespace Sys2Proof.Machine

/-- The fault each instruction raises, if any, as the check of its meaning reports it. -/
def faultOf (s : State) : Instr → Option Fault
  | .call _ => if 16 ≤ s.sp then some (.stackOverflow s.pc) else none
  | .ret => if s.sp = 0 then some (.stackUnderflow s.pc) else none
  | .drw _ _ n => (checkRange s.base n).map .addressOutOfRange
  | .ldB _ => (checkStore s.params.fontWrite s.base 3).map .addressOutOfRange
  | .ldMemVx x => (checkStore s.params.fontWrite s.base (x.val + 1)).map .addressOutOfRange
  | .ldVxMem x => (checkRange s.base (x.val + 1)).map .addressOutOfRange
  | .skp x | .sknp x =>
    if s.testKey (s.readV x) = .outOfRange then some (.keyIndexOutOfRange s.pc (s.readV x)) else none
  | _ => none

/-! What `exec` leaves in the fault status. -/

/-- The meaning from `s` leaves `o` in the fault status, which without a fault stays what it was. -/
def LeavesFault (s : State) (o : Option Fault) (r : Result) : Prop :=
  ∀ t, r = .next t → t.fault = o.or s.fault

theorem leavesFault_raise (f : Fault) (s : State) : LeavesFault s (some f) (raise f s) := by
  rintro t ⟨⟩; rfl

theorem leavesFault_finish {s u : State} (hu : u.fault = s.fault) (o : NextPc) :
    LeavesFault s none (finish o u) := by
  rintro t ⟨⟩; exact hu

theorem leavesFault_afterCheck {s : State} {go : Result} (bad : Option Nat) (h : LeavesFault s none go) :
    LeavesFault s (bad.map .addressOutOfRange) (afterCheck bad s go) := by
  cases bad with
  | none => exact h
  | some a => exact leavesFault_raise _ s

theorem leavesFault_storeFromI (bs : List Byte) (s : State) :
    LeavesFault s ((checkStore s.params.fontWrite s.base bs.length).map .addressOutOfRange)
      (storeFromI bs s) :=
  leavesFault_afterCheck _ (leavesFault_finish (State.storeBytes_fault ..) _)

theorem exec_leavesFault (i : Instr) (s : State) : LeavesFault s (faultOf s i) (exec i s) := by
  cases i with
  | call nnn =>
    simp only [exec, execCall, faultOf]
    split
    · exact leavesFault_raise _ s
    · exact leavesFault_finish (State.push_fault ..) _
  | ret =>
    simp only [exec, execRet, faultOf]
    split
    · exact leavesFault_raise _ s
    · exact leavesFault_finish (State.pop_fault s) _
  | drw x y n => exact leavesFault_afterCheck _ (leavesFault_finish (State.afterDraw_fault ..) _)
  | ldB x => exact leavesFault_storeFromI (bcdDigits (s.readV x)) s
  | ldMemVx x =>
    rw [exec_ldMemVx, faultOf, ← s.regsUpTo_length x]
    exact leavesFault_storeFromI (s.regsUpTo x) s
  | ldVxMem x => exact leavesFault_afterCheck _ (leavesFault_finish rfl _)
  | skp x | sknp x =>
    simp only [exec, execSkp, execSknp, faultOf]
    cases s.testKey (s.readV x) with
    | outOfRange => exact leavesFault_raise _ s
    | latch p => exact leavesFault_finish rfl _
  | ldVxK x =>
    simp only [exec, execLdVxK]
    split
    · exact leavesFault_finish rfl _
    · exact leavesFault_finish rfl _
  | sub x y | shr x y | subn x y | shl x y => exact leavesFault_finish (State.flagThenResult_fault ..) _
  | _ => exact leavesFault_finish rfl _

theorem fault_of_exec {i : Instr} {s t : State} (hs : s.fault = none) (h : exec i s = .next t) :
    t.fault = faultOf s i := by
  rw [exec_leavesFault i s t h, hs, Option.or_none]

/-! The rows of the table (R124), instruction by instruction. -/

section Rows
variable {s : State} {f : Fault} (x y : RegIx)

theorem raises_call (nnn : Imm12) : Raises (.call nnn) s f ↔ s.sp = 16 ∧ f = .stackOverflow s.pc := by
  simp [Raises]

theorem raises_ret : Raises .ret s f ↔ s.sp = 0 ∧ f = .stackUnderflow s.pc := by simp [Raises]

theorem raises_drw (n : Nat) : Raises (.drw x y n) s f ↔
    0 < n ∧ 4096 < s.base + n ∧ f = .addressOutOfRange (max s.base 4096) := by
  simp [Raises, State.base]

theorem raises_ldB : Raises (.ldB x) s f ↔
    4096 < s.base + 3 ∧ f = .addressOutOfRange (max s.base 4096) ∨
    s.params.fontWrite = .fault ∧ s.base < 80 ∧ f = .addressOutOfRange s.base := by
  simp [Raises, State.base]

theorem raises_ldMemVx : Raises (.ldMemVx x) s f ↔
    4096 < s.base + (x.val + 1) ∧ f = .addressOutOfRange (max s.base 4096) ∨
    s.params.fontWrite = .fault ∧ s.base < 80 ∧ f = .addressOutOfRange s.base := by
  simp [Raises, State.base, Nat.add_assoc]

theorem raises_ldVxMem : Raises (.ldVxMem x) s f ↔
    4096 < s.base + (x.val + 1) ∧ f = .addressOutOfRange (max s.base 4096) := by
  simp [Raises, State.base, Nat.add_assoc]

theorem raises_keySkip {i : Instr} (hi : i = .skp x ∨ i = .sknp x) : Raises i s f ↔
    s.params.keyIndex = .fault ∧ 15 < (s.readV x).toNat ∧ f = .keyIndexOutOfRange s.pc (s.readV x) := by
  rcases hi with rfl | rfl <;> simp [Raises]

end Rows

/-! The checks report what the table says. -/

theorem map_checkRange_eq_some {base count : Nat} {f : Fault} :
    (checkRange base count).map .addressOutOfRange = some f ↔
      0 < count ∧ 4096 < base + count ∧ f = .addressOutOfRange (max base 4096) := by
  simp only [Option.map_eq_some_iff, checkRange_eq_some]
  constructor
  · rintro ⟨_, ⟨hpos, hout, rfl⟩, rfl⟩; exact ⟨hpos, hout, rfl⟩
  · rintro ⟨hpos, hout, rfl⟩; exact ⟨_, ⟨hpos, hout, rfl⟩, rfl⟩

/-- A store of 1 to 16 bytes from below 80 is in range, so the two faults of a store exclude each other. -/
theorem map_checkStore_eq_some {fw : Config.FontWrite} {base count : Nat} {f : Fault} (hpos : 0 < count)
    (hcount : count ≤ 16) :
    (checkStore fw base count).map .addressOutOfRange = some f ↔
      4096 < base + count ∧ f = .addressOutOfRange (max base 4096) ∨
      fw = .fault ∧ base < 80 ∧ f = .addressOutOfRange base := by
  simp only [Option.map_eq_some_iff, checkStore_eq_some]
  constructor
  · rintro ⟨_, ⟨-, hout, rfl⟩ | ⟨-, hfw, -, hlow, rfl⟩, rfl⟩
    · exact .inl ⟨hout, rfl⟩
    · exact .inr ⟨hfw, hlow, rfl⟩
  · rintro (⟨hout, rfl⟩ | ⟨hfw, hlow, rfl⟩)
    · exact ⟨_, .inl ⟨hpos, hout, rfl⟩, rfl⟩
    · exact ⟨_, .inr ⟨.inr (by omega), hfw, hpos.ne', hlow, rfl⟩, rfl⟩

theorem keyFault_eq_some {s : State} {k : Byte} {f : Fault} :
    (if s.testKey k = .outOfRange then some (Fault.keyIndexOutOfRange s.pc k) else none) = some f ↔
      s.params.keyIndex = .fault ∧ 15 < k.toNat ∧ f = .keyIndexOutOfRange s.pc k := by
  rw [Option.ite_none_right_eq_some, Option.some.injEq, State.testKey_eq_outOfRange,
    and_comm (a := 15 < k.toNat), and_assoc, eq_comm (b := f)]

theorem faultOf_eq_some_iff_raises {s : State} (hsp : s.sp ≤ 16) (i : Instr) (f : Fault) :
    faultOf s i = some f ↔ Raises i s f := by
  cases i with
  | call nnn =>
    rw [raises_call, faultOf, Option.ite_none_right_eq_some, Option.some.injEq, eq_comm (b := f)]
    exact and_congr_left' ⟨fun h => by omega, fun h => by omega⟩
  | ret =>
    rw [raises_ret, faultOf, Option.ite_none_right_eq_some, Option.some.injEq, eq_comm (b := f)]
  | drw x y n => exact map_checkRange_eq_some.trans (raises_drw x y n).symm
  | ldB x => exact (map_checkStore_eq_some (by decide) (by decide)).trans (raises_ldB x).symm
  | ldMemVx x => exact (map_checkStore_eq_some (Nat.succ_pos _) x.isLt).trans (raises_ldMemVx x).symm
  | ldVxMem x =>
    rw [faultOf, map_checkRange_eq_some, raises_ldVxMem, and_iff_right (Nat.succ_pos _)]
  | skp x => exact keyFault_eq_some.trans (raises_keySkip x (.inl rfl)).symm
  | sknp x => exact keyFault_eq_some.trans (raises_keySkip x (.inr rfl)).symm
  | _ => simp [faultOf, Raises]

theorem exec_fault_iff_raises {i : Instr} {s t : State} {f : Fault} (hs : s.fault = none) (hsp : s.sp ≤ 16)
    (h : exec i s = .next t) : t.fault = some f ↔ Raises i s f := by
  rw [fault_of_exec hs h, faultOf_eq_some_iff_raises hsp]

/-! What a step that fetches leaves in the fault status: the tick does not write it. -/

theorem fault_of_step_undefined {s t : State} (hs : Fetches s) (hd : decodeWord (fetchWord s) = none)
    (h : step s = .next t) : t.fault = none := by
  rw [step_of_undefined hs hd] at h
  cases h
  exact hs.1

theorem fault_of_step_instr {i : Instr} {s t : State} (hs : Fetches s)
    (hd : decodeWord (fetchWord s) = some i) (h : step s = .next t) : t.fault = faultOf s i := by
  obtain ⟨u, hu⟩ := exec_next i (latchOpcode s)
  have hfault : u.fault = faultOf s i := fault_of_exec (s := latchOpcode s) hs.1 hu
  rw [step_of_instr hs hd, hu, endStep_next] at h
  cases h
  rw [← hfault]
  split
  · rfl
  · exact u.tick_fault

theorem step_fault_iff {s t : State} {f : Fault} (hs : s.fault = none) (hsp : s.sp ≤ 16)
    (h : step s = .next t) : t.fault = some f ↔
      (4095 < s.pc.toNat + 1 ∧ f = .addressOutOfRange (max s.pc.toNat 4096)) ∨
      (s.pc.toNat + 1 ≤ 4095 ∧ ∃ i, decodeWord (fetchWord s) = some i ∧ Raises i s f) := by
  by_cases hpc : s.pc.toNat + 1 < 4096
  · have hin : s.pc.toNat + 1 ≤ 4095 := by omega
    simp only [Nat.not_lt.mpr hin, hin, false_and, true_and, false_or]
    cases hd : decodeWord (fetchWord s) with
    | none => simp [fault_of_step_undefined ⟨hs, hpc⟩ hd h]
    | some i => simp [fault_of_step_instr ⟨hs, hpc⟩ hd h, faultOf_eq_some_iff_raises hsp]
  · have hout : 4095 < s.pc.toNat + 1 := by omega
    simp only [hout, Nat.not_le.mpr hout, false_and, true_and, or_false]
    rw [step_of_fetch_out_of_range hs (Nat.not_lt.mp hpc)] at h
    cases h
    simp only [Option.some.injEq, eq_comm]

/-- Settles O14, from what an instruction and what a step leave in the fault status. -/
theorem faultsOfTheBlock : Obligations.FaultsOfTheBlock :=
  ⟨fun _ _ _ _ => exec_fault_iff_raises, fun _ _ _ => step_fault_iff,
    fun _ _ _ => ⟨rfl, rfl, rfl, rfl⟩⟩

end Sys2Proof.Machine
end

section
/-!
The host's ports (spec/60_exceptions.md R127, R136 to R140): load and set_key by the two ways each ends, the ports
that only observe, and the halted machine, of which every port but reset keeps the fault status.
-/

namespace Sys2Proof.Machine

/-! load (R136). -/

theorem portLoad_of_fits {bytes : List Byte} (s : State) (h : bytes.length ≤ 3584) :
    portLoad bytes s = .ok (s.pokeBytes 0x200 bytes) := portLoad_eq_ok.mpr ⟨h, rfl⟩

theorem portLoad_of_too_large {bytes : List Byte} (s : State) (h : 3584 < bytes.length) :
    portLoad bytes s = .error .romTooLarge := if_pos h

theorem State.readByte_pokeBytes_image {s : State} {base : Nat} {bs : List Byte} {k : Nat}
    (hk : k < bs.length) : (s.pokeBytes base bs).readByte (base + k) = bs[k] := by
  rw [State.readByte_pokeBytes, if_pos ⟨by omega, by omega⟩, Nat.add_sub_cancel_left,
    List.getD_eq_getElem _ _ hk]

theorem State.readByte_pokeBytes_outside {s : State} {base : Nat} {bs : List Byte} {a : Nat}
    (h : a < base ∨ base + bs.length ≤ a) : (s.pokeBytes base bs).readByte a = s.readByte a := by
  rw [State.readByte_pokeBytes, if_neg (by omega)]

theorem State.pokeBytes_eq_setMem (s : State) (base : Nat) (bs : List Byte) :
    s.pokeBytes base bs = { s with mem := (s.pokeBytes base bs).mem } := by
  induction bs generalizing s base with
  | nil => rfl
  | cons b bs ih => exact ih (s.pokeByte base b) (base + 1)

/-- Settles O56: an image that fits is poked from 0x200 up, a longer one is rejected. -/
theorem loadWritesImageOrRejects : Obligations.LoadWritesImageOrRejects := by
  intro bytes s
  refine ⟨fun hfits => ?writes, fun hlong => ?rejects⟩
  case writes =>
    exact ⟨_, congrArg (replyOf s) (portLoad_of_fits s hfits), fun _ => State.readByte_pokeBytes_image,
      fun _ => State.readByte_pokeBytes_outside, s.pokeBytes_eq_setMem 0x200 bytes⟩
  case rejects => exact congrArg (replyOf s) (portLoad_of_too_large s hlong)

/-! The ports that only observe (R138 to R140). -/

theorem portSound_eq_true {s : State} : portSound s = true ↔ s.st ≠ 0 := bne_iff_ne

/-- Settles O57: each port answers from the state it is given and returns that state. -/
theorem observationPortsReadOnly : Obligations.ObservationPortsReadOnly := fun s =>
  ⟨rfl, ⟨portSound s, rfl, portSound_eq_true⟩, rfl⟩

/-! set_key (R137). -/

theorem portSetKey_of_lt {code : Nat} (b : Bool) (s : State) (h : code < 16) :
    portSetKey code b s = .ok { s with key := s.key.set code b } := dif_pos h

theorem portSetKey_of_ge {code : Nat} (b : Bool) (s : State) (h : 16 ≤ code) :
    portSetKey code b s = .error .invalidKey := dif_neg (Nat.not_lt.mpr h)

theorem State.pressed_setLatch (s : State) {code : Nat} (h : code < 16) (b : Bool) (k : Nat) :
    ({ s with key := s.key.set code b } : State).pressed k = if k = code then b else s.pressed k := by
  unfold State.pressed
  by_cases hk : k < Config.numKeys
  · simp only [hk, dif_pos, Vector.getElem_set, eq_comm]
  · simp only [hk, dif_neg, not_false_eq_true]
    rw [if_neg (fun hc => hk (hc.trans_lt h))]

/-- Settles O58: a code up to 15 sets its latch, a greater one is rejected. -/
theorem setKeyWritesOneLatch : Obligations.SetKeyWritesOneLatch := by
  intro code b s
  refine ⟨fun hvalid => ?sets, fun hinvalid => ?rejects⟩
  case sets =>
    have hlt : code < 16 := Nat.lt_succ_of_le hvalid
    refine ⟨_, congrArg (replyOf s) (portSetKey_of_lt b s hlt), ?level, fun k hk => ?others, rfl⟩
    case level => rw [s.pressed_setLatch hlt, if_pos rfl]
    case others => rw [s.pressed_setLatch hlt, if_neg hk]
  case rejects => exact congrArg (replyOf s) (portSetKey_of_ge b s hinvalid)

/-! The halted machine (R127). -/

theorem portStep_halted {s : State} {f : Fault} (h : s.fault = some f) : portStep s = (.err f, s) := by
  rw [portStep, step_halted h]

theorem fault_of_portLoad {bytes : List Byte} {s t : State} (h : portLoad bytes s = .ok t) :
    t.fault = s.fault := by
  obtain ⟨-, rfl⟩ := portLoad_eq_ok.mp h
  exact State.pokeBytes_fault s 0x200 bytes

theorem fault_of_portSetKey {code : Nat} {b : Bool} {s t : State} (h : portSetKey code b s = .ok t) :
    t.fault = s.fault := by
  by_cases hcode : code < 16
  · rw [portSetKey_of_lt b s hcode] at h; cases h; rfl
  · rw [portSetKey_of_ge b s (Nat.not_lt.mp hcode)] at h; cases h

/-- A rejected call leaves the state as it is (R129), so only an accepted one could write the fault status. -/
theorem fault_of_replyOf {s : State} {r : Except HostError State} (h : ∀ t, r = .ok t → t.fault = s.fault) :
    (replyOf s r).2.fault = s.fault := by
  cases r with
  | ok t => exact h t rfl
  | error e => rfl

theorem fault_of_portCall_halted {s : State} {f : Fault} (hs : s.fault = some f) {c : PortCall}
    (hc : ∀ p ds, c ≠ .reset p ds) : (portCall c s).2.fault = some f := by
  cases c with
  | reset p ds => exact absurd rfl (hc p ds)
  | load bytes => exact (fault_of_replyOf fun _ => fault_of_portLoad).trans hs
  | setKey code b => exact (fault_of_replyOf fun _ => fault_of_portSetKey).trans hs
  | step => rw [portCall, portStep_halted hs, hs]
  | displayRead | soundSignal | inspect => exact hs

/-- Settles O12: step answers the fault, the other ports keep it by the lemmas above, and reset clears it. -/
theorem haltedUntilReset : Obligations.HaltedUntilReset := by
  intro s f hs
  refine ⟨step_halted hs, portStep_halted hs, fun _ _ hload => (fault_of_portLoad hload).trans hs,
    fun _ hfits => ⟨_, portLoad_of_fits s hfits⟩, fun code b hlt => ?setsKey,
    fun _ => fault_of_portCall_halted hs, fun _ _ => rfl⟩
  case setsKey =>
    refine ⟨_, portSetKey_of_lt b s hlt, hs, ?level⟩
    case level => rw [s.pressed_setLatch hlt, if_pos rfl]

end Sys2Proof.Machine
end

section
/-!
The encoding (spec/30_encoding.md): the decoder and the encoder invert each other, and the rows of the opcode map
against both. A word that matches the row of an instruction is the encoding of that instruction with the operands
the word's fields give (`Instr.withFields`), so it decodes; that no word matches two rows follows from it.
-/

namespace Sys2Proof

/-! Decoding an encoded instruction (R60 to R70). -/

theorem decodeWord_encodeWord {i : Instr} (h : WellFormed i = true) : decodeWord (encodeWord i) = some i := by
  cases i with
  | cls | ret => decide
  | jp nnn => exact decodeWord_jp nnn
  | call nnn => exact decodeWord_call nnn
  | seImm x kk => exact decodeWord_seImm x kk
  | sneImm x kk => exact decodeWord_sneImm x kk
  | seReg x y => exact decodeWord_family5 x y 0
  | ldImm x kk => exact decodeWord_ldImm x kk
  | addImm x kk => exact decodeWord_addImm x kk
  | ldReg x y => exact decodeWord_ldReg x y
  | orReg x y => exact decodeWord_orReg x y
  | andReg x y => exact decodeWord_andReg x y
  | xorReg x y => exact decodeWord_xorReg x y
  | addReg x y => exact decodeWord_addReg x y
  | sub x y => exact decodeWord_sub x y
  | shr x y => exact decodeWord_shr x y
  | subn x y => exact decodeWord_subn x y
  | shl x y => exact decodeWord_shl x y
  | sneReg x y => exact decodeWord_family9 x y 0
  | ldI nnn => exact decodeWord_ldI nnn
  | jpV0 nnn => exact decodeWord_jpV0 nnn
  | rnd x kk => exact decodeWord_rnd x kk
  | drw x y n =>
    have hn : n < 16 := of_decide_eq_true h
    rw [encodeWord, decodeWord_drw, BitVec.toNat_ofNat, Nat.mod_eq_of_lt hn]
  | skp x => exact decodeWord_skp x
  | sknp x => exact decodeWord_sknp x
  | ldVxDt x => exact decodeWord_ldVxDt x
  | ldVxK x => exact decodeWord_ldVxK x
  | ldDtVx x => exact decodeWord_ldDtVx x
  | ldStVx x => exact decodeWord_ldStVx x
  | addI x => exact decodeWord_addI x
  | ldF x => exact decodeWord_ldF x
  | ldB x => exact decodeWord_ldB x
  | ldMemVx x => exact decodeWord_ldMemVx x
  | ldVxMem x => exact decodeWord_ldVxMem x

theorem decode_bytes_of_decodeWord {w : Word} {i : Instr} (h : decodeWord w = some i) (rest : List Byte) :
    decode (highByte w :: lowByte w :: rest) = .ok (i, rest) := by
  rw [decode, wordOfBytes_highByte_lowByte, h]

/-- Settles O2: the word of each instruction by the lemma of its pattern, and the bytes by the word they make. -/
theorem decodeInvertsEncode : Obligations.DecodeInvertsEncode := fun _ rest h =>
  ⟨decodeWord_encodeWord h, decode_bytes_of_decodeWord (decodeWord_encodeWord h) rest⟩

/-! Encoding a decoded word: the formats put back the fields the decoder tested (R61, R63). -/

section Fields
variable {w : Word} {o n : Nibble} {kk : Byte}

theorem formatNnn_of_family (h : fieldFamily w = o) : formatNnn o (fieldNnn w) = w :=
  h ▸ formatNnn_fields w

theorem formatXkk_of_family (h : fieldFamily w = o) : formatXkk o (fieldX w) (fieldKk w) = w :=
  h ▸ formatXkk_fields w

theorem formatXkk_of_fields (h : fieldFamily w = o) (hkk : fieldKk w = kk) :
    formatXkk o (fieldX w) kk = w := hkk ▸ formatXkk_of_family h

theorem formatXyn_of_fields (h : fieldFamily w = o) (hn : fieldN w = n) :
    formatXyn o (fieldX w) (fieldY w) n = w := by
  rw [← h, ← hn, formatXyn_fields]

end Fields

/-- `i` is a well-formed instruction of which `w` is the word. -/
def IsWordOf (w : Word) (i : Instr) : Prop := WellFormed i = true ∧ encodeWord i = w

theorem isWordOf_of_decodeFamily0 {w : Word} {i : Instr} (h : decodeFamily0 w = some i) : IsWordOf w i := by
  unfold decodeFamily0 at h
  split_ifs at h with h0 h1
  · cases h; exact ⟨rfl, h0.symm⟩
  · cases h; exact ⟨rfl, h1.symm⟩

theorem isWordOf_of_decodeFamily8 {w : Word} {i : Instr} (hw : fieldFamily w = 0x8#4)
    (h : decodeFamily8 w = some i) : IsWordOf w i := by
  have hformat {n : Nibble} (hn : (fieldN w).toNat = n.toNat) :
      formatXyn 0x8#4 (fieldX w) (fieldY w) n = w := formatXyn_of_fields hw (BitVec.eq_of_toNat_eq hn)
  unfold decodeFamily8 at h
  split at h <;> cases h <;> exact ⟨rfl, hformat ‹_›⟩

theorem isWordOf_of_decodeFamilyE {w : Word} {i : Instr} (hw : fieldFamily w = 0xE#4)
    (h : decodeFamilyE w = some i) : IsWordOf w i := by
  unfold decodeFamilyE at h
  split_ifs at h with hkk hkk <;> cases h <;> exact ⟨rfl, formatXkk_of_fields hw hkk⟩

theorem isWordOf_of_decodeFamilyF {w : Word} {i : Instr} (hw : fieldFamily w = 0xF#4)
    (h : decodeFamilyF w = some i) : IsWordOf w i := by
  unfold decodeFamilyF at h
  split_ifs at h <;> cases h <;> exact ⟨rfl, formatXkk_of_fields hw ‹_›⟩

/-- The branches of the decoder in their order: `h_1` is family 0, `h_16` family F. -/
theorem isWordOf_of_decodeWord {w : Word} {i : Instr} (h : decodeWord w = some i) : IsWordOf w i := by
  have hfamily {o : Nibble} (ho : (fieldFamily w).toNat = o.toNat) : fieldFamily w = o :=
    BitVec.eq_of_toNat_eq ho
  unfold decodeWord at h
  split at h
  case h_1 => exact isWordOf_of_decodeFamily0 h
  case h_6 hw | h_10 hw =>
    split_ifs at h with hn
    cases h
    exact ⟨rfl, formatXyn_of_fields (hfamily hw) hn⟩
  case h_9 hw => exact isWordOf_of_decodeFamily8 (hfamily hw) h
  case h_14 hw =>
    cases h
    exact ⟨decide_eq_true (fieldN w).isLt, formatXyn_of_fields (hfamily hw) (by simp)⟩
  case h_15 hw => exact isWordOf_of_decodeFamilyE (hfamily hw) h
  case h_16 hw => exact isWordOf_of_decodeFamilyF (hfamily hw) h
  case h_2 hw | h_3 hw | h_11 hw | h_12 hw => cases h; exact ⟨rfl, formatNnn_of_family (hfamily hw)⟩
  case h_4 hw | h_5 hw | h_7 hw | h_8 hw | h_13 hw =>
    cases h; exact ⟨rfl, formatXkk_of_family (hfamily hw)⟩
  case h_17 => cases h

/-- Settles O3, family by family of the decoder. -/
theorem encodeInvertsDecode : Obligations.EncodeInvertsDecode := fun _ _ => isWordOf_of_decodeWord

/-! The opcode map (R65 to R72). -/

/-- The instruction with the operands that the fields of a word give. -/
def Instr.withFields (w : Word) : Instr → Instr
  | .cls => .cls
  | .ret => .ret
  | .jp _ => .jp (fieldNnn w)
  | .call _ => .call (fieldNnn w)
  | .seImm _ _ => .seImm (fieldX w) (fieldKk w)
  | .sneImm _ _ => .sneImm (fieldX w) (fieldKk w)
  | .seReg _ _ => .seReg (fieldX w) (fieldY w)
  | .ldImm _ _ => .ldImm (fieldX w) (fieldKk w)
  | .addImm _ _ => .addImm (fieldX w) (fieldKk w)
  | .ldReg _ _ => .ldReg (fieldX w) (fieldY w)
  | .orReg _ _ => .orReg (fieldX w) (fieldY w)
  | .andReg _ _ => .andReg (fieldX w) (fieldY w)
  | .xorReg _ _ => .xorReg (fieldX w) (fieldY w)
  | .addReg _ _ => .addReg (fieldX w) (fieldY w)
  | .sub _ _ => .sub (fieldX w) (fieldY w)
  | .shr _ _ => .shr (fieldX w) (fieldY w)
  | .subn _ _ => .subn (fieldX w) (fieldY w)
  | .shl _ _ => .shl (fieldX w) (fieldY w)
  | .sneReg _ _ => .sneReg (fieldX w) (fieldY w)
  | .ldI _ => .ldI (fieldNnn w)
  | .jpV0 _ => .jpV0 (fieldNnn w)
  | .rnd _ _ => .rnd (fieldX w) (fieldKk w)
  | .drw _ _ _ => .drw (fieldX w) (fieldY w) (fieldN w).toNat
  | .skp _ => .skp (fieldX w)
  | .sknp _ => .sknp (fieldX w)
  | .ldVxDt _ => .ldVxDt (fieldX w)
  | .ldVxK _ => .ldVxK (fieldX w)
  | .ldDtVx _ => .ldDtVx (fieldX w)
  | .ldStVx _ => .ldStVx (fieldX w)
  | .addI _ => .addI (fieldX w)
  | .ldF _ => .ldF (fieldX w)
  | .ldB _ => .ldB (fieldX w)
  | .ldMemVx _ => .ldMemVx (fieldX w)
  | .ldVxMem _ => .ldVxMem (fieldX w)

theorem rowOf_withFields (w : Word) (i : Instr) : rowOf (i.withFields w) = rowOf i := by cases i <;> rfl

theorem wellFormed_withFields (w : Word) (i : Instr) : WellFormed (i.withFields w) = true := by
  cases i with
  | drw x y n => exact decide_eq_true (fieldN w).isLt
  | _ => rfl

/-! A mask leaves the fields whose bits it holds. -/

theorem fieldFamily_and_F000 (w : Word) : fieldFamily (w &&& 0xF000) = fieldFamily w := by
  unfold fieldFamily; ext k hk; interval_cases k <;> simp

theorem fieldFamily_and_F00F (w : Word) : fieldFamily (w &&& 0xF00F) = fieldFamily w := by
  unfold fieldFamily; ext k hk; interval_cases k <;> simp

theorem fieldFamily_and_F0FF (w : Word) : fieldFamily (w &&& 0xF0FF) = fieldFamily w := by
  unfold fieldFamily; ext k hk; interval_cases k <;> simp

theorem fieldN_and_F00F (w : Word) : fieldN (w &&& 0xF00F) = fieldN w := by
  unfold fieldN; ext k hk; interval_cases k <;> simp

theorem fieldKk_and_F0FF (w : Word) : fieldKk (w &&& 0xF0FF) = fieldKk w := by
  unfold fieldKk; ext k hk; interval_cases k <;> simp

section Rows
variable {w p : Word}

theorem matches_iff {r : OpcodeRow} : r.matches w = true ↔ w &&& r.mask = r.pattern := decide_eq_true_iff

theorem family_of_matches_F000 (h : OpcodeRow.matches ⟨0xF000, p⟩ w = true) :
    fieldFamily w = fieldFamily p := by
  rw [← fieldFamily_and_F000, matches_iff.mp h]

theorem fields_of_matches_F00F (h : OpcodeRow.matches ⟨0xF00F, p⟩ w = true) :
    fieldFamily w = fieldFamily p ∧ fieldN w = fieldN p := by
  rw [← fieldFamily_and_F00F, ← fieldN_and_F00F, matches_iff.mp h]
  exact ⟨rfl, rfl⟩

theorem fields_of_matches_F0FF (h : OpcodeRow.matches ⟨0xF0FF, p⟩ w = true) :
    fieldFamily w = fieldFamily p ∧ fieldKk w = fieldKk p := by
  rw [← fieldFamily_and_F0FF, ← fieldKk_and_F0FF, matches_iff.mp h]
  exact ⟨rfl, rfl⟩

theorem eq_of_matches_FFFF (h : OpcodeRow.matches ⟨0xFFFF, p⟩ w = true) : p = w :=
  (matches_iff.mp h).symm.trans BitVec.and_allOnes

end Rows

theorem encodeWord_withFields {w : Word} {i : Instr} (h : (rowOf i).matches w = true) :
    encodeWord (i.withFields w) = w := by
  cases i with
  | cls | ret => exact eq_of_matches_FFFF h
  | jp nnn | call nnn | ldI nnn | jpV0 nnn => exact formatNnn_of_family (family_of_matches_F000 h)
  | seImm x kk | sneImm x kk | ldImm x kk | addImm x kk | rnd x kk =>
    exact formatXkk_of_family (family_of_matches_F000 h)
  | drw x y n => exact formatXyn_of_fields (family_of_matches_F000 h) (by simp)
  | seReg x y | sneReg x y | ldReg x y | orReg x y | andReg x y | xorReg x y | addReg x y | sub x y | shr x y
  | subn x y | shl x y =>
    obtain ⟨hfamily, hn⟩ := fields_of_matches_F00F h
    exact formatXyn_of_fields hfamily hn
  | skp x | sknp x | ldVxDt x | ldVxK x | ldDtVx x | ldStVx x | addI x | ldF x | ldB x | ldMemVx x
  | ldVxMem x =>
    obtain ⟨hfamily, hkk⟩ := fields_of_matches_F0FF h
    exact formatXkk_of_fields hfamily hkk

theorem decodeWord_of_matches {w : Word} {i : Instr} (h : (rowOf i).matches w = true) :
    decodeWord w = some (i.withFields w) := by
  rw [← decodeWord_encodeWord (wellFormed_withFields w i), encodeWord_withFields h]

end Sys2Proof

namespace Sys2Proof.Laws.EncodesItsRow

/-- The law of the row holds of every instruction. -/
theorem forall_instr : ∀ i : Instr, Statement i
  | .cls => cls
  | .ret => ret
  | .jp nnn => jp nnn
  | .call nnn => call nnn
  | .seImm x kk => seImm x kk
  | .sneImm x kk => sneImm x kk
  | .seReg x y => seReg x y
  | .ldImm x kk => ldImm x kk
  | .addImm x kk => addImm x kk
  | .ldReg x y => ldReg x y
  | .orReg x y => orReg x y
  | .andReg x y => andReg x y
  | .xorReg x y => xorReg x y
  | .addReg x y => addReg x y
  | .sub x y => sub x y
  | .shr x y => shr x y
  | .subn x y => subn x y
  | .shl x y => shl x y
  | .sneReg x y => sneReg x y
  | .ldI nnn => ldI nnn
  | .jpV0 nnn => jpV0 nnn
  | .rnd x kk => rnd x kk
  | .drw x y n => drw x y n
  | .skp x => skp x
  | .sknp x => sknp x
  | .ldVxDt x => ldVxDt x
  | .ldVxK x => ldVxK x
  | .ldDtVx x => ldDtVx x
  | .ldStVx x => ldStVx x
  | .addI x => addI x
  | .ldF x => ldF x
  | .ldB x => ldB x
  | .ldMemVx x => ldMemVx x
  | .ldVxMem x => ldVxMem x

end Sys2Proof.Laws.EncodesItsRow

namespace Sys2Proof

/-! The rows of the map are those of the instructions. -/

theorem rowOf_mem_opcodeRows (i : Instr) : rowOf i ∈ opcodeRows := by
  cases i <;> simp [opcodeRows, rowOf]

theorem exists_rowOf_of_mem : ∀ r ∈ opcodeRows, ∃ i, rowOf i = r := by simp [opcodeRows]

theorem rowOf_matches_of_decodeWord {w : Word} {i : Instr} (h : decodeWord w = some i) :
    (rowOf i).matches w = true := by
  obtain ⟨-, rfl⟩ := isWordOf_of_decodeWord h
  exact Laws.EncodesItsRow.forall_instr i

/-- Settles O4: the one instruction a matching word decodes to has both rows. -/
theorem noWordMatchesTwoRows : Obligations.NoWordMatchesTwoRows := by
  intro w p q hp hq hpw hqw
  obtain ⟨i, rfl⟩ := exists_rowOf_of_mem p hp
  obtain ⟨j, rfl⟩ := exists_rowOf_of_mem q hq
  have hsame : i.withFields w = j.withFields w :=
    Option.some.inj ((decodeWord_of_matches hpw).symm.trans (decodeWord_of_matches hqw))
  rw [← rowOf_withFields w i, hsame, rowOf_withFields]

theorem decodeWord_eq_none_iff {w : Word} :
    decodeWord w = none ↔ ∀ r ∈ opcodeRows, r.matches w = false := by
  constructor
  · intro hnone r hr
    obtain ⟨i, rfl⟩ := exists_rowOf_of_mem r hr
    refine Bool.eq_false_iff.mpr fun hmatch => ?_
    cases hnone.symm.trans (decodeWord_of_matches hmatch)
  · intro hrows
    refine Option.eq_none_iff_forall_ne_some.mpr fun i hi => ?_
    cases (hrows _ (rowOf_mem_opcodeRows i)).symm.trans (rowOf_matches_of_decodeWord hi)

/-- Settles O5: a word that matches a row decodes, and the row of a decoded instruction matches its word. -/
theorem undefinedWordsMatchNoRow : Obligations.UndefinedWordsMatchNoRow :=
  ⟨rfl, fun _ => ⟨decodeWord_eq_none_iff, fun i hi =>
    ⟨rowOf_mem_opcodeRows i, rowOf_matches_of_decodeWord hi⟩⟩⟩

/-- Settles O1: fifteen words, each decoded. -/
theorem sampleWordsDecode : Obligations.SampleWordsDecode := by
  unfold Obligations.SampleWordsDecode
  decide

end Sys2Proof
end

section
/-!
What an instruction may write (spec/10_state.md, spec/20_memory.md R43), read off `exec_cases`: a completed
instruction is framed by `touches`. The frame speaks of memory byte by byte, so that the list itself is left as it
was is settled here for every instruction but Fx33 and Fx55.
-/

namespace Sys2Proof.Machine

/-! Memory. -/

/-- The meaning from `s` leaves the memory list as it was. -/
def KeepsMemory (s : State) (r : Result) : Prop := ∀ t, r = .next t → t.mem = s.mem

theorem keepsMemory_raise (f : Fault) (s : State) : KeepsMemory s (raise f s) := by
  rintro t ⟨⟩; rfl

theorem keepsMemory_finish {s u : State} (hu : u.mem = s.mem) (o : NextPc) : KeepsMemory s (finish o u) := by
  rintro t ⟨⟩; exact hu

theorem keepsMemory_afterCheck {s : State} {go : Result} (bad : Option Nat) (h : KeepsMemory s go) :
    KeepsMemory s (afterCheck bad s go) := by
  cases bad with
  | none => exact h
  | some a => exact keepsMemory_raise _ s

theorem exec_keepsMemory {i : Instr} (hi : ∀ x, i ≠ .ldB x ∧ i ≠ .ldMemVx x) (s : State) :
    KeepsMemory s (exec i s) := by
  cases i with
  | ldB x => exact absurd rfl (hi x).1
  | ldMemVx x => exact absurd rfl (hi x).2
  | ret =>
    simp only [exec, execRet]
    split
    · exact keepsMemory_raise _ s
    · exact keepsMemory_finish (State.pop_mem s) _
  | call nnn =>
    simp only [exec, execCall]
    split
    · exact keepsMemory_raise _ s
    · exact keepsMemory_finish (State.push_mem ..) _
  | drw x y n => exact keepsMemory_afterCheck _ (keepsMemory_finish (State.afterDraw_mem ..) _)
  | ldVxMem x => exact keepsMemory_afterCheck _ (keepsMemory_finish rfl _)
  | skp x | sknp x =>
    simp only [exec, execSkp, execSknp]
    split
    · exact keepsMemory_raise _ s
    · exact keepsMemory_finish rfl _
  | ldVxK x =>
    simp only [exec, execLdVxK]
    split
    · exact keepsMemory_finish rfl _
    · exact keepsMemory_finish rfl _
  | sub x y | shr x y | subn x y | shl x y => exact keepsMemory_finish (State.flagThenResult_mem ..) _
  | _ => exact keepsMemory_finish rfl _

/-! No instruction writes the parameters or the key latches (R8, R33). -/

theorem keysAndParams_of_exec {i : Instr} {s t : State} (h : exec i s = .next t) :
    t.key = s.key ∧ t.params = s.params := by
  rcases exec_cases h with ⟨f, rfl⟩ | hframe
  · exact ⟨rfl, rfl⟩
  · exact ⟨hframe.key, hframe.params⟩

/-- A machine that is halted has no next state. -/
theorem fault_of_step_next {s t : State} (h : step s = .next t) : s.fault = none := by
  cases hs : s.fault with
  | none => rfl
  | some f => cases (step_halted hs).symm.trans h

/-- Settles O18: of the four ways a step ends, only the last runs an instruction to its end. -/
theorem stepKeepsKeysAndParameters : Obligations.StepKeepsKeysAndParameters := by
  intro s t h
  cases step_ends (fault_of_step_next h) h with
  | fetchFault | instrFault | undefined => exact ⟨rfl, rfl⟩
  | completed _ _ _ _ hexec =>
    obtain ⟨hkey, hparams⟩ := keysAndParams_of_exec hexec
    exact ⟨hkey, hparams⟩

/-- Settles O20: the list is kept, and the bytes read from it under the same font. -/
theorem onlyBcdAndStoreWriteMemory : Obligations.OnlyBcdAndStoreWriteMemory := by
  intro i s t h hi
  have hmem : t.mem = s.mem := exec_keepsMemory hi s t h
  exact ⟨hmem, State.readByte_congr hmem (congrArg (·.font) (keysAndParams_of_exec h).2)⟩

/-! Which instructions touch the stack, I, the display and the draws. -/

theorem touches_stack {i : Instr} (hcall : ∀ nnn, i ≠ .call nnn) (hret : i ≠ .ret) :
    (touches i).stack = false := by
  cases i with
  | call nnn => exact absurd rfl (hcall nnn)
  | ret => exact absurd rfl hret
  | _ => rfl

theorem touches_index {i : Instr} (h : ∀ nnn x, i ≠ .ldI nnn ∧ i ≠ .addI x ∧ i ≠ .ldF x) :
    (touches i).index = false := by
  cases i with
  | ldI nnn => exact absurd rfl (h nnn 0).1
  | addI x => exact absurd rfl (h 0 x).2.1
  | ldF x => exact absurd rfl (h 0 x).2.2
  | _ => rfl

theorem touches_display {i : Instr} (h : ∀ x y n, i ≠ .cls ∧ i ≠ .drw x y n) :
    (touches i).display = false := by
  cases i with
  | cls => exact absurd rfl (h 0 0 0).1
  | drw x y n => exact absurd rfl (h x y n).2
  | _ => rfl

theorem touches_draws {i : Instr} (h : ∀ x kk, i ≠ .rnd x kk) : (touches i).draws = false := by
  cases i with
  | rnd x kk => exact absurd rfl (h x kk)
  | _ => rfl

/-! The stack: return and call by the two ways each ends, and what the other instructions leave (R25). -/

theorem exec_ret_cases {s t : State} (h : exec .ret s = .next t) :
    s.sp = 0 ∧ t = { s with fault := some (.stackUnderflow s.pc) } ∨
    0 < s.sp ∧ t = { s.pop with pc := s.slot (s.sp - 1) } := by
  rcases Nat.eq_zero_or_pos s.sp with hempty | hpos
  · rw [exec_ret_of_empty hempty] at h; cases h; exact .inl ⟨hempty, rfl⟩
  · rw [exec_ret_of_pos hpos] at h; cases h; exact .inr ⟨hpos, rfl⟩

/-- A stack pointer above 16, which no run reaches, overflows too. -/
theorem exec_call_of_ge {s : State} (nnn : Imm12) (h : 16 ≤ s.sp) :
    exec (.call nnn) s = .next { s with fault := some (.stackOverflow s.pc) } := if_pos h

theorem exec_call_cases {nnn : Imm12} {s t : State} (h : exec (.call nnn) s = .next t) :
    16 ≤ s.sp ∧ t = { s with fault := some (.stackOverflow s.pc) } ∨
    s.sp < 16 ∧ t = { s.push (s.pc + 2) with pc := zext12 nnn } := by
  rcases Nat.lt_or_ge s.sp 16 with hlt | hge
  · rw [exec_call_of_lt nnn hlt] at h; cases h; exact .inr ⟨hlt, rfl⟩
  · rw [exec_call_of_ge nnn hge] at h; cases h; exact .inl ⟨hge, rfl⟩

theorem stack_of_exec {i : Instr} {s t : State} (h : exec i s = .next t) (hcall : ∀ nnn, i ≠ .call nnn)
    (hret : i ≠ .ret) : t.sp = s.sp ∧ t.stack = s.stack := by
  rcases exec_cases h with ⟨f, rfl⟩ | hframe
  · exact ⟨rfl, rfl⟩
  · exact hframe.stack (touches_stack hcall hret)

/-- 00EE moves sp only, and down. -/
theorem stack_of_exec_no_call {i : Instr} {s t : State} (h : exec i s = .next t)
    (hcall : ∀ nnn, i ≠ .call nnn) : t.sp ≤ s.sp ∧ t.stack = s.stack := by
  by_cases hret : i = .ret
  · subst hret
    rcases exec_ret_cases h with ⟨-, rfl⟩ | ⟨-, rfl⟩
    · exact ⟨Nat.le_refl s.sp, rfl⟩
    · exact ⟨Nat.sub_le s.sp 1, rfl⟩
  · exact (stack_of_exec h hcall hret).imp_left Nat.le_of_eq

/-- Settles O19: 00EE moves sp only, and the other instructions do not touch the stack. -/
theorem onlyCallAndReturnWriteStack : Obligations.OnlyCallAndReturnWriteStack := fun _ _ _ h hcall =>
  ⟨(stack_of_exec_no_call h hcall).2, fun hret => (stack_of_exec h hcall hret).1⟩

/-! I, the display and the draws (R20, R31, R38). -/

/-- Settles O21: the other instructions do not touch I, or the display. -/
theorem writersOfIndexAndDisplay : Obligations.WritersOfIndexAndDisplay := by
  intro i s t h
  rcases exec_cases h with ⟨f, rfl⟩ | hframe
  · exact ⟨fun _ => rfl, fun _ => rfl⟩
  · exact ⟨fun hi => hframe.index (touches_index hi), fun hi => hframe.display (touches_display hi)⟩

/-- Settles O40: the write of Cxkk is on the state with the draw taken, and no other instruction touches the
draws. -/
theorem onlyRandomTakesDraws : Obligations.OnlyRandomTakesDraws := by
  refine ⟨fun x kk b bs s hdraws => ?injected, fun i s t h hi => ?others⟩
  case injected =>
    refine ⟨_, rfl, ?value, ?rest⟩
    case value => rw [State.readV_setPc, State.readV_writeV_same, State.nextDraw, hdraws]; rfl
    case rest => exact congrArg List.tail hdraws
  case others =>
    rcases exec_cases h with ⟨f, rfl⟩ | hframe
    · exact ⟨rfl, rfl⟩
    · exact hframe.draws (touches_draws hi)

/-! Registers (R16, R18). -/

theorem mem_regs_of_exec {i : Instr} {s t : State} {r : RegIx} (h : exec i s = .next t)
    (hr : t.readV r ≠ s.readV r) : r ∈ (touches i).regs := by
  rcases exec_cases h with ⟨f, rfl⟩ | hframe
  · exact absurd rfl hr
  · by_contra hmem
    exact hr (hframe.regs r hmem)

/-- Dxyn only ever sets VF (R119). -/
theorem readV_of_exec_drw {x y : RegIx} {n : Nat} {s t : State} {r : RegIx}
    (h : exec (.drw x y n) s = .next t) (hr : t.readV r ≠ s.readV r) : t.readV r = 1 := by
  rw [exec_drw, afterCheck_next] at h
  rcases h with ⟨a, -, rfl⟩ | ⟨-, hdraw⟩
  · exact absurd rfl hr
  · cases hdraw
    rw [State.readV_setPc, State.readV_afterDraw] at hr ⊢
    split at hr
    · exact if_pos ‹_›
    · exact absurd rfl hr

/-- Settles O22: a register that differs is one the instruction touches. -/
theorem writersOfRegisters : Obligations.WritersOfRegisters := by
  intro i s t r h hr
  have hmem := mem_regs_of_exec h hr
  cases i with
  | drw x y n => exact ⟨List.mem_singleton.mp hmem, readV_of_exec_drw h hr⟩
  | ldVxMem x => exact of_decide_eq_true (List.mem_filter.mp hmem).2
  | addReg x y | sub x y | shr x y | subn x y | shl x y =>
    simpa only [touches, List.mem_cons, List.not_mem_nil, or_false] using hmem
  | ldImm x kk | addImm x kk | rnd x kk | ldVxDt x | ldVxK x => exact List.mem_singleton.mp hmem
  | ldReg x y | orReg x y | andReg x y | xorReg x y => exact List.mem_singleton.mp hmem
  | _ => exact List.not_mem_nil hmem

end Sys2Proof.Machine
end

section
/-!
The invariant (spec/10_state.md R23, R26; spec/20_memory.md R41): reset meets it, and every step and every other
port call keeps it. It speaks of four components only, so what writes none of them keeps it (`Inv.of_eq`).
-/

namespace Sys2Proof.Machine

/-- The invariant speaks of memory, the parameters, the stack and pc only. -/
theorem Inv.of_eq {s t : State} (h : Inv s) (hmem : t.mem = s.mem) (hparams : t.params = s.params)
    (hsp : t.sp = s.sp) (hstack : t.stack = s.stack) (hpc : t.pc.toNat ≤ 0x10FE) : Inv t where
  memory := by rw [hmem, hparams]; exact h.memory
  sp := by rw [hsp]; exact h.sp
  pc := hpc
  slots := fun j => by rw [State.slot_congr hstack]; exact h.slots j

/-! Reset (R40). -/

theorem inv_resetWith (p : Config.Params) (ds : List Byte) : Inv (State.resetWith p ds) where
  memory := Memory.wf_nil p.font
  sp := Nat.zero_le _
  pc := show (BitVec.ofNat 16 Config.progBase).toNat ≤ 0x10FE by decide
  slots := fun j => by rw [State.slot_resetWith]; decide

/-- Settles O16: nothing is listed in memory, sp and the slots are 0, and pc is 0x200. -/
theorem resetMeetsInvariant : Obligations.ResetMeetsInvariant :=
  ⟨inv_resetWith, inv_resetWith defaultParams []⟩

/-! An instruction keeps each component: memory by the range check of its stores, the stack by the check of sp, and
pc by the table of next pcs. -/

theorem memory_wf_of_storeFromI {bs : List Byte} {s t : State} (hwf : Memory.wf s.params.font s.mem = true)
    (h : storeFromI bs s = .next t) : Memory.wf s.params.font t.mem = true := by
  rw [storeFromI, afterCheck_next] at h
  rcases h with ⟨a, -, rfl⟩ | ⟨hcheck, hstore⟩
  · exact hwf
  · cases hstore
    exact State.storeBytes_wf hwf (checkStore_eq_none.mp hcheck).1

section Exec
variable {i : Instr} {s t : State} (hinv : Inv s) (h : exec i s = .next t)
include hinv h

theorem memory_wf_of_exec : Memory.wf t.params.font t.mem = true := by
  rw [(keysAndParams_of_exec h).2]
  by_cases hkeeps : ∀ x, i ≠ .ldB x ∧ i ≠ .ldMemVx x
  · rw [exec_keepsMemory hkeeps s t h]
    exact hinv.memory
  · simp only [not_forall, not_and_or, not_not] at hkeeps
    obtain ⟨x, rfl | rfl⟩ := hkeeps
    · exact memory_wf_of_storeFromI hinv.memory ((exec_ldB x s).symm.trans h)
    · exact memory_wf_of_storeFromI hinv.memory ((exec_ldMemVx x s).symm.trans h)

/-- The address 2nnn pushes is that of a fetched instruction plus 2 (R23). -/
theorem stack_bounds_of_exec (hpc : s.pc.toNat + 1 < 4096) :
    t.sp ≤ 16 ∧ ∀ j, (t.slot j).toNat ≤ 0x1000 := by
  by_cases hcall : ∃ nnn, i = .call nnn
  · obtain ⟨nnn, rfl⟩ := hcall
    rcases exec_call_cases h with ⟨-, rfl⟩ | ⟨hlt, rfl⟩
    · exact ⟨hinv.sp, hinv.slots⟩
    · refine ⟨hlt, fun j => ?_⟩
      have hpushed : (s.pc + 2).toNat ≤ 0x1000 := by bv_omega
      change ((s.push (s.pc + 2)).slot j).toNat ≤ 0x1000
      rw [State.slot_push]
      split
      · exact hpushed
      · exact hinv.slots j
  · obtain ⟨hsp, hstack⟩ := stack_of_exec_no_call h (not_exists.mp hcall)
    exact ⟨hsp.trans hinv.sp, fun j => State.slot_congr hstack j ▸ hinv.slots j⟩

theorem inv_of_exec (hpc : s.pc.toNat + 1 < 4096) (hfault : t.fault = none) : Inv t where
  memory := memory_wf_of_exec hinv h
  sp := (stack_bounds_of_exec hinv h hpc).1
  pc := exec_leavesPc i s t h hfault ▸ NextPc.target_le hpc fun _ => outcomeOf_jump_le hinv
  slots := (stack_bounds_of_exec hinv h hpc).2

end Exec

/-! A step, and the ports. -/

theorem inv_of_step {s t : State} (hinv : Inv s) (h : step s = .next t) : Inv t := by
  cases step_ends (fault_of_step_next h) h with
  | fetchFault => exact hinv.of_eq rfl rfl rfl rfl hinv.pc
  | instrFault => exact hinv.of_eq rfl rfl rfl rfl hinv.pc
  | undefined hpc => exact hinv.of_eq rfl rfl rfl rfl (NextPc.target_le (o := .next) hpc nofun)
  | completed i u hpc _ hexec hfault =>
    have hlatched : Inv (latchOpcode s) := hinv.of_eq rfl rfl rfl rfl hinv.pc
    have hu : Inv u := inv_of_exec hlatched hexec hpc hfault
    exact hu.of_eq rfl rfl rfl rfl hu.pc

/-- Settles O15: of the four ways a step ends, two leave the four components as they were, one moves pc past an
undefined word, and the last is an instruction. -/
theorem stepKeepsInvariant : Obligations.StepKeepsInvariant := fun _ _ => inv_of_step

theorem inv_of_portStep {s : State} (hinv : Inv s) : Inv (portStep s).2 := by
  unfold portStep
  cases h : step s with
  | next t =>
    have ht : Inv t := inv_of_step hinv h
    cases hf : t.fault <;> simpa only [hf] using ht
  | fault f => exact hinv
  | refused r => exact hinv

theorem inv_of_replyOf {s : State} {r : Except HostError State} (hinv : Inv s) (h : ∀ t, r = .ok t → Inv t) :
    Inv (replyOf s r).2 := by
  cases r with
  | ok t => exact h t rfl
  | error e => exact hinv

/-- An image that `load` accepts ends inside memory: 0x200 + 3584 = 4096 (R136). -/
theorem inv_of_portLoad {bytes : List Byte} {s t : State} (hinv : Inv s) (h : portLoad bytes s = .ok t) :
    Inv t := by
  obtain ⟨hfits, rfl⟩ := portLoad_eq_ok.mp h
  refine ⟨?memory, ?sp, ?pc, fun j => ?slots⟩
  case memory =>
    rw [State.pokeBytes_params]
    exact State.pokeBytes_wf hinv.memory (.inr (Nat.add_le_add_left hfits 0x200))
  case sp => rw [State.pokeBytes_sp]; exact hinv.sp
  case pc => rw [State.pokeBytes_pc]; exact hinv.pc
  case slots => rw [State.slot_congr (State.pokeBytes_stack ..)]; exact hinv.slots j

theorem inv_of_portSetKey {code : Nat} {b : Bool} {s t : State} (hinv : Inv s)
    (h : portSetKey code b s = .ok t) : Inv t := by
  by_cases hcode : code < 16
  · rw [portSetKey_of_lt b s hcode] at h
    cases h
    exact hinv.of_eq rfl rfl rfl rfl hinv.pc
  · rw [portSetKey_of_ge b s (Nat.not_lt.mp hcode)] at h
    cases h

theorem inv_of_portCall {s : State} (hinv : Inv s) (c : PortCall) : Inv (portCall c s).2 := by
  cases c with
  | reset p ds =>
    have hreset := inv_resetWith p ds
    exact hreset.of_eq rfl rfl rfl rfl hreset.pc
  | load bytes => exact inv_of_replyOf hinv fun _ => inv_of_portLoad hinv
  | setKey code b => exact inv_of_replyOf hinv fun _ => inv_of_portSetKey hinv
  | step => exact inv_of_portStep hinv
  | displayRead | soundSignal | inspect => exact hinv

/-- Settles O17, by induction on the calls. -/
theorem portRunsKeepInvariant : Obligations.PortRunsKeepInvariant := by
  intro cs
  induction cs with
  | nil => exact fun _ hinv => hinv
  | cons c cs ih => exact fun s hinv => ih _ (inv_of_portCall hinv c)

end Sys2Proof.Machine
end

section
/-!
What no instruction reads (spec/10_state.md R27, R29, R36). `State.withUnread` overwrites the opcode register, ST and
the stack at once: every instruction but 00EE, 2nnn and Fx18 runs alike from the state so overwritten and leaves
the overwritten values. Return and call go by the two ways each ends, and Fx18 by its equation. Last, what
`P_VF_ALIAS` changes of a result that does not read VF (R93): nothing.
-/

namespace Sys2Proof.Machine

/-- The state with the three components overwritten that most instructions neither read nor write. -/
def State.withUnread (s : State) (w : Word) (b : Byte) (k : Vector Word Config.stackDepth) : State :=
  { s with opcode := w, st := b, stack := k }

section Unread
variable (w : Word) (b : Byte) (k : Vector Word Config.stackDepth)

/-! The shared operations neither read nor write the three. -/

theorem State.withUnread_storeBytes (s : State) (base : Nat) (bs : List Byte) :
    (s.withUnread w b k).storeBytes base bs = (s.storeBytes base bs).withUnread w b k := by
  induction bs generalizing s base with
  | nil => rfl
  | cons b' bs ih =>
    have hbyte : (s.withUnread w b k).storeByte base b' = (s.storeByte base b').withUnread w b k := by
      unfold State.storeByte
      rw [show (s.withUnread w b k).params = s.params from rfl]
      split <;> rfl
    rw [State.storeBytes, hbyte, ih]; rfl

theorem State.withUnread_flagThenResult (s : State) (c : Bool) (x : RegIx) {g : State → Byte}
    (hg : ∀ r : State, g (r.withUnread w b k) = g r) :
    (s.withUnread w b k).flagThenResult c x g = (s.flagThenResult c x g).withUnread w b k := by
  unfold State.flagThenResult
  rw [show (s.withUnread w b k).params = s.params from rfl]
  cases s.params.vfAlias with
  | snapshotTableOrder => simp only [hg]; rfl
  | sequential =>
    have hflag : (s.withUnread w b k).writeFlag c = (s.writeFlag c).withUnread w b k := rfl
    simp only [hflag, hg]; rfl

theorem State.withUnread_afterDraw (s : State) (x y : RegIx) (n : Nat) :
    (s.withUnread w b k).afterDraw x y n = (s.afterDraw x y n).withUnread w b k := by
  unfold State.afterDraw
  rw [show (s.withUnread w b k).drawn x y n = s.drawn x y n from rfl]
  dsimp only
  split <;> rfl

/-! The ways a meaning ends. -/

/-- The second result is the first with the three overwritten. -/
def Overwritten (r r' : Result) : Prop := ∀ t, r = .next t → r' = .next (t.withUnread w b k)

variable {w b k}

theorem overwritten_finish {u u' : State} (hu : u' = u.withUnread w b k) (o : NextPc) :
    Overwritten w b k (finish o u) (finish o u') := by
  rintro t ⟨⟩
  rw [hu]; rfl

theorem overwritten_raise (f : Fault) (s : State) :
    Overwritten w b k (raise f s) (raise f (s.withUnread w b k)) := by
  rintro t ⟨⟩; rfl

theorem overwritten_afterCheck {s : State} {go go' : Result} (bad : Option Nat)
    (h : Overwritten w b k go go') :
    Overwritten w b k (afterCheck bad s go) (afterCheck bad (s.withUnread w b k) go') := by
  cases bad with
  | none => exact h
  | some a => exact overwritten_raise _ s

theorem overwritten_flagThenResult (s : State) (c : Bool) (x : RegIx) {g : State → Byte}
    (hg : ∀ r : State, g (r.withUnread w b k) = g r) :
    Overwritten w b k (finish .next (s.flagThenResult c x g))
      (finish .next ((s.withUnread w b k).flagThenResult c x g)) :=
  overwritten_finish (State.withUnread_flagThenResult w b k s c x hg) _

theorem overwritten_storeFromI (bs : List Byte) (s : State) :
    Overwritten w b k (storeFromI bs s) (storeFromI bs (s.withUnread w b k)) :=
  overwritten_afterCheck _ (overwritten_finish (State.withUnread_storeBytes w b k s _ bs) _)

theorem overwritten_exec {i : Instr} (hret : i ≠ .ret) (hcall : ∀ nnn, i ≠ .call nnn)
    (hst : ∀ x, i ≠ .ldStVx x) (s : State) :
    Overwritten w b k (exec i s) (exec i (s.withUnread w b k)) := by
  cases i with
  | ret => exact absurd rfl hret
  | call nnn => exact absurd rfl (hcall nnn)
  | ldStVx x => exact absurd rfl (hst x)
  | sub x y | shr x y | subn x y | shl x y => exact overwritten_flagThenResult s _ x fun _ => rfl
  | drw x y n =>
    exact overwritten_afterCheck _ (overwritten_finish (State.withUnread_afterDraw w b k s x y n) _)
  | ldB x => exact overwritten_storeFromI (bcdDigits (s.readV x)) s
  | ldMemVx x => exact overwritten_storeFromI (s.regsUpTo x) s
  | ldVxMem x => exact overwritten_afterCheck _ (overwritten_finish rfl _)
  | skp x =>
    rcases htest : s.testKey (s.readV x) with p | _
    · rw [exec_skp_of_latch htest, exec_skp_of_latch (s := s.withUnread w b k) htest]
      exact overwritten_finish rfl _
    · rw [exec_skp_of_outOfRange htest, exec_skp_of_outOfRange (s := s.withUnread w b k) htest]
      exact overwritten_raise _ s
  | sknp x =>
    rcases htest : s.testKey (s.readV x) with p | _
    · rw [exec_sknp_of_latch htest, exec_sknp_of_latch (s := s.withUnread w b k) htest]
      exact overwritten_finish rfl _
    · rw [exec_sknp_of_outOfRange htest, exec_sknp_of_outOfRange (s := s.withUnread w b k) htest]
      exact overwritten_raise _ s
  | ldVxK x =>
    rcases hkey : s.lowestKey with _ | n
    · rw [exec_ldVxK_of_no_key x hkey, exec_ldVxK_of_no_key (s := s.withUnread w b k) x hkey]
      rintro t ⟨⟩; rfl
    · rw [exec_ldVxK_of_lowestKey x hkey, exec_ldVxK_of_lowestKey (s := s.withUnread w b k) x hkey]
      exact overwritten_finish rfl _
  | _ => exact overwritten_finish rfl _

end Unread

/-! The opcode register (R36) and ST (R29). -/

section Exec
variable {i : Instr} {s t : State} (h : exec i s = .next t)
include h

theorem opcode_of_exec : t.opcode = s.opcode := by
  rcases exec_cases h with ⟨f, rfl⟩ | hframe
  · rfl
  · exact hframe.opcode

theorem st_of_exec (hst : ∀ x, i ≠ .ldStVx x) : t.st = s.st := by
  rcases exec_cases h with ⟨f, rfl⟩ | hframe
  · rfl
  · exact hframe.soundTimer (touches_soundTimer hst)

theorem exec_withOpcodeAndSt (hst : ∀ x, i ≠ .ldStVx x) (w : Word) (b : Byte) :
    exec i { s with opcode := w, st := b } = .next { t with opcode := w, st := b } := by
  by_cases hret : i = .ret
  · subst hret
    rcases exec_ret_cases h with ⟨hempty, rfl⟩ | ⟨hpos, rfl⟩
    · exact exec_ret_of_empty hempty
    · exact exec_ret_of_pos hpos
  by_cases hcall : ∃ nnn, i = .call nnn
  · obtain ⟨nnn, rfl⟩ := hcall
    rcases exec_call_cases h with ⟨hge, rfl⟩ | ⟨hlt, rfl⟩
    · exact exec_call_of_ge nnn hge
    · exact exec_call_of_lt nnn hlt
  rw [not_exists] at hcall
  have hstack : t.stack = s.stack := (stack_of_exec h hcall hret).2
  have hover := overwritten_exec (w := w) (b := b) (k := s.stack) hret hcall hst s t h
  exact hover.trans (by rw [← hstack]; rfl)

end Exec

/-- Settles O23: ST stays what it was but for Fx18, whose equation names no opcode register. -/
theorem opcodeRegisterNeverRead : Obligations.OpcodeRegisterNeverRead := by
  intro i s t w h
  by_cases hst : ∀ x, i ≠ .ldStVx x
  · have hboth := exec_withOpcodeAndSt h hst w s.st
    exact hboth.trans (by rw [← st_of_exec h hst])
  · simp only [not_forall, not_not] at hst
    obtain ⟨x, rfl⟩ := hst
    cases h; rfl

/-- Settles O25: the opcode register stays what it was, and Fx18 overwrites ST. -/
theorem soundTimerNeverRead : Obligations.SoundTimerNeverRead := by
  intro i s t b h
  by_cases hst : ∀ x, i ≠ .ldStVx x
  · have hboth := exec_withOpcodeAndSt h hst s.opcode b
    split
    · next x => exact absurd rfl (hst x)
    · exact hboth.trans (by rw [← opcode_of_exec h])
  · simp only [not_forall, not_not] at hst
    obtain ⟨x, rfl⟩ := hst
    cases h; rfl

/-! The stack slots at and above sp (R27). -/

/-- Settles O24: 00EE reads the slot below sp, 2nnn writes the slot at sp, Fx18 and the other instructions leave
the stack alone. -/
theorem staleSlotsNeverRead : Obligations.StaleSlotsNeverRead := by
  rintro i s s' t ⟨hslots, hrest⟩ h
  generalize s'.stack = k at hrest
  subst hrest
  by_cases hret : i = .ret
  · subst hret
    rcases exec_ret_cases h with ⟨hempty, rfl⟩ | ⟨hpos, rfl⟩
    · exact ⟨_, exec_ret_of_empty hempty, hslots, rfl⟩
    · have hpopped := hslots (s.sp - 1) (Nat.sub_lt hpos Nat.one_pos)
      refine ⟨_, exec_ret_of_pos hpos, fun j hj => hslots j (Nat.lt_of_lt_of_le hj (Nat.sub_le s.sp 1)), ?_⟩
      simp only [NextPc.target, hpopped]; rfl
  by_cases hcall : ∃ nnn, i = .call nnn
  · obtain ⟨nnn, rfl⟩ := hcall
    rcases exec_call_cases h with ⟨hge, rfl⟩ | ⟨hlt, rfl⟩
    · exact ⟨_, exec_call_of_ge nnn hge, hslots, rfl⟩
    · refine ⟨_, exec_call_of_lt nnn hlt, fun j hj => ?_, rfl⟩
      change (State.push { s with stack := k } (s.pc + 2)).slot j = (s.push (s.pc + 2)).slot j
      rw [State.slot_push, State.slot_push]
      refine ite_congr rfl (fun _ => rfl) fun hne => hslots j ?_
      have hj' : j < s.sp + 1 := hj
      omega
  rw [not_exists] at hcall
  obtain ⟨hsp, hstack⟩ := stack_of_exec h hcall hret
  have hlive : AgreeOnLiveStack t { t with stack := k } :=
    ⟨fun j hj => (hslots j (hsp ▸ hj)).trans (State.slot_congr hstack j).symm, rfl⟩
  refine ⟨_, ?_, hlive⟩
  by_cases hst : ∀ x, i ≠ .ldStVx x
  · have hover := overwritten_exec (w := s.opcode) (b := s.st) (k := k) hret hcall hst s t h
    exact hover.trans (by rw [← opcode_of_exec h, ← st_of_exec h hst]; rfl)
  · simp only [not_forall, not_not] at hst
    obtain ⟨x, rfl⟩ := hst
    cases h; rfl

/-! `P_VF_ALIAS` (R93). -/

/-- A result that does not read VF is the same under both settings. -/
theorem State.flagThenResult_of_ignores_VF {g : State → Byte}
    (hg : ∀ r r' : State, (∀ z, z ≠ 15 → r'.readV z = r.readV z) → g r' = g r) (s : State) (c : Bool)
    (x : RegIx) : s.flagThenResult c x g = (s.writeFlag c).writeV x (g s) := by
  have hflag : g (s.writeFlag c) = g s := hg _ _ fun z hz => by rw [State.readV_writeFlag, if_neg hz]
  unfold State.flagThenResult
  cases s.params.vfAlias with
  | snapshotTableOrder => rfl
  | sequential => dsimp only; rw [hflag]

theorem flagThenResult_withParams {g : State → Byte}
    (hg : ∀ r r' : State, (∀ z, z ≠ 15 → r'.readV z = r.readV z) → g r' = g r) {s t : State} {c : Bool}
    {x : RegIx} (p : Config.Params) (h : finish .next (s.flagThenResult c x g) = .next t) :
    finish .next (({ s with params := p } : State).flagThenResult c x g) = .next { t with params := p } := by
  rw [State.flagThenResult_of_ignores_VF hg] at h ⊢
  cases h
  rw [hg s { s with params := p } fun _ _ => rfl]
  rfl

/-- Settles O38: 8xy4 does not read the setting, and the results of the other four do not read VF. -/
theorem aliasSettingsAgreeAwayFromVf : Obligations.AliasSettingsAgreeAwayFromVf := by
  intro x y i s t v hx hy hi h
  simp only [List.mem_cons, List.not_mem_nil, or_false] at hi
  rcases hi with rfl | rfl | rfl | rfl | rfl
  · cases h; rfl
  · exact flagThenResult_withParams (fun r r' hr => by rw [hr x hx, hr y hy]) _ h
  · exact flagThenResult_withParams (fun r r' hr => by rw [hr x hx]) _ h
  · exact flagThenResult_withParams (fun r r' hr => by rw [hr x hx, hr y hy]) _ h
  · exact flagThenResult_withParams (fun r r' hr => by rw [hr x hx]) _ h

end Sys2Proof.Machine
end

section
/-!
The step as the host sees it (spec/40_execution_cycle.md R74, R75), and what a program sees of a timer over
several steps (spec/44_timers.md R113).
-/

namespace Sys2Proof.Machine

/-- Settles O6: the ending of the step is the match of the statement, and `exec` always answers a next state. -/
theorem stepRunsDecodedInstruction : Obligations.StepRunsDecodedInstruction := by
  intro s i hs hd
  obtain ⟨t, ht⟩ := exec_next i (latchOpcode s)
  have hstated : exec i { s with opcode := fetchWord s } = .next t := ht
  rw [step_of_instr hs hd, ht, hstated, endStep_next]
  cases hf : t.fault <;> simp only [hf] <;> rfl

theorem portStep_of_next {s t : State} (h : step s = .next t) :
    (t.fault = none ∧ portStep s = (.ok, t)) ∨ ∃ f, t.fault = some f ∧ portStep s = (.err f, t) := by
  unfold portStep
  rw [h]
  cases hf : t.fault with
  | none => exact .inl ⟨rfl, by simp only [hf]⟩
  | some f => exact .inr ⟨f, rfl, by simp only [hf]⟩

/-- Settles O13: the next state there always is decides the reply. -/
theorem stepReturnsOkOrErr : Obligations.StepReturnsOkOrErr := by
  intro s hs
  obtain ⟨t, ht⟩ := step_next hs
  exact ⟨t, ht, portStep_of_next ht⟩

/-! A step that does not write a timer takes it down by 1 (R79). -/

section Tick
variable {s t : State} (hs : s.fault = none) (h : step s = .next t) (hf : t.fault = none)
include hs h hf

theorem dt_of_step (hd : ∀ i, decodeWord (fetchWord s) = some i → writesDelayTimer i = false) :
    t.dt.toNat = s.dt.toNat - 1 := by
  rw [(stepTicksBothTimers s t hs h hf).1]
  split
  · next x hx => cases hd _ hx
  · rfl

theorem st_of_step (hd : ∀ i, decodeWord (fetchWord s) = some i → writesSoundTimer i = false) :
    t.st.toNat = s.st.toNat - 1 := by
  rw [(stepTicksBothTimers s t hs h hf).2]
  split
  · next x hx => cases hd _ hx
  · rfl

end Tick

theorem dt_of_stepsAvoiding {n : Nat} {s t : State} (hs : s.fault = none)
    (h : StepsAvoiding writesDelayTimer n s t) : t.dt.toNat = s.dt.toNat - n := by
  induction n generalizing s with
  | zero => rw [h, Nat.sub_zero]
  | succ n ih =>
    obtain ⟨hd, u, hu, huf, hrest⟩ := h
    rw [ih huf hrest, dt_of_step hs hu huf hd]; omega

theorem st_of_stepsAvoiding {n : Nat} {s t : State} (hs : s.fault = none)
    (h : StepsAvoiding writesSoundTimer n s t) : t.st.toNat = s.st.toNat - n := by
  induction n generalizing s with
  | zero => rw [h, Nat.sub_zero]
  | succ n ih =>
    obtain ⟨hd, u, hu, huf, hrest⟩ := h
    rw [ih huf hrest, st_of_step hs hu huf hd]; omega

/-- Fx07 leaves DT as it stood at the start of its step (R114). -/
theorem readV_of_step_ldVxDt {s t : State} {y : RegIx} (hs : Fetches s)
    (hd : decodeWord (fetchWord s) = some (.ldVxDt y)) (h : step s = .next t) : t.readV y = s.dt := by
  have hrun : step s = .next (State.tick { (latchOpcode s).writeV y s.dt with pc := s.pc + 2 }) := by
    rw [step_of_instr hs hd, exec_ldVxDt, finish, endStep_next, if_neg (by simp [latchOpcode, hs.1])]
    rfl
  cases h.symm.trans hrun
  exact State.readV_writeV_same (latchOpcode s) y s.dt

theorem portSound_eq_true_iff_pos {s : State} : portSound s = true ↔ 0 < s.st.toNat := by
  rw [portSound_eq_true, Nat.pos_iff_ne_zero, ne_eq, ne_eq, ← BitVec.toNat_inj]; rfl

/-- Settles O49: the step that writes the timer ticks it once, and each of the n further steps ticks it again. -/
theorem timerCountsDownFromWrite : Obligations.TimerCountsDownFromWrite := by
  intro s u t x n hs h
  have hticks (hf : u.fault = none) := stepTicksBothTimers s u hs.1 h hf
  refine ⟨fun hd hsteps => ?delay, fun hd hsteps => ?sound⟩
  case delay =>
    have hf : u.fault = none := fault_of_step_instr hs hd h
    have hwritten : u.dt.toNat = (s.readV x).toNat - 1 := by rw [(hticks hf).1, hd]
    have hdt : t.dt.toNat = (s.readV x).toNat - (n + 1) := by
      rw [dt_of_stepsAvoiding hf hsteps, hwritten]; omega
    exact ⟨hdt, fun y r ht hread hr => by rw [readV_of_step_ldVxDt ht hread hr, hdt]⟩
  case sound =>
    have hf : u.fault = none := fault_of_step_instr hs hd h
    have hwritten : u.st.toNat = (s.readV x).toNat - 1 := by rw [(hticks hf).2, hd]
    have hst : t.st.toNat = (s.readV x).toNat - (n + 1) := by
      rw [st_of_stepsAvoiding hf hsteps, hwritten]; omega
    exact ⟨hst, by rw [portSound_eq_true_iff_pos, hst, Nat.sub_pos_iff_lt]⟩

end Sys2Proof.Machine
end

section
/-!
Pairs of instructions: a call and its return (spec/41_control_flow.md R84, R86), a store and the load or the fetch
of the stored bytes (spec/43_index_memory.md R111, R112; spec/20_memory.md R59), and two draws of one sprite
(spec/45_display_input.md R119).
-/

namespace Sys2Proof.Machine

/-- Settles O29: the return pops the slot that the call pushed. -/
theorem returnUndoesCall : Obligations.ReturnUndoesCall := by
  intro nnn s t u hlt h hsp hstack
  rw [exec_call_of_lt nnn hlt] at h
  cases h
  have husp : u.sp = s.sp + 1 := hsp
  have hslot (j : Nat) : u.slot j = (s.push (s.pc + 2)).slot j := State.slot_congr hstack j
  have hpop : u.sp - 1 = s.sp := by omega
  refine ⟨_, exec_ret_of_pos (by omega), ?pc, hpop, fun j hj => ?slots⟩
  case pc =>
    change u.slot (u.sp - 1) = s.pc + 2
    rw [hpop, hslot, State.slot_push_same _ hlt]
  case slots => exact (hslot j).trans (State.slot_push_ne _ (Nat.ne_of_lt hj))

/-! Store and load. -/

/-- Fx55 in range, where no byte is dropped and none faults: it stores V0..Vx and advances. -/
theorem exec_ldMemVx_stores {x : RegIx} {s t : State} (hrange : s.base + x.val ≤ 4095)
    (hfw : s.params.fontWrite = .write ∨ 80 ≤ s.base) (h : exec (.ldMemVx x) s = .next t) :
    (∀ r : RegIx, r ≤ x → t.readByte (s.base + r.val) = s.readV r) ∧ t.pc = s.pc + 2 ∧
      Frame { memory := true } s t := by
  obtain ⟨-, hstores, -⟩ := storeRegistersFromIndex x s
  have hfont : s.params.fontWrite = .fault → 80 ≤ s.base := fun hfault =>
    hfw.resolve_left fun hwrite => by cases hwrite.symm.trans hfault
  obtain ⟨t', ht', hbytes, -, hpc, hframe⟩ := hstores hrange hfont
  cases h.symm.trans ht'
  refine ⟨fun r hr => hbytes r hr fun ⟨hignore, hlow⟩ => ?_, hpc, hframe⟩
  rcases hfw with hwrite | hhigh
  · cases hwrite.symm.trans hignore
  · omega

/-- Settles O46: each register is loaded from the byte it was stored to. -/
theorem loadUndoesStore : Obligations.LoadUndoesStore := by
  intro x s t u hrange hfw h hmem hparams hi
  obtain ⟨hbytes, -, hframe⟩ := exec_ldMemVx_stores hrange hfw h
  have hbase : u.base = s.base := congrArg BitVec.toNat (hi.trans (hframe.index rfl))
  obtain ⟨-, hloads, -⟩ := loadRegistersFromIndex x u
  obtain ⟨r, hr, hregs, -⟩ := hloads (hbase ▸ hrange)
  refine ⟨r, hr, fun k hk => ?_⟩
  rw [hregs k hk, hbase, State.readByte_congr hmem (congrArg (·.font) hparams), hbytes k hk]

/-- Settles O47: V0 and V1 stand at the address the store leaves in pc and the one after. -/
theorem fetchSeesEarlierStores : Obligations.FetchSeesEarlierStores := by
  intro s t hlow hhigh hbase h
  obtain ⟨hbytes, hpc, -⟩ := exec_ldMemVx_stores (x := 1) hhigh (.inr hlow) h
  have hpc' : t.pc.toNat = s.base := by rw [hpc]; bv_omega
  have h0 : t.readByte s.base = s.readV 0 := hbytes 0 (by decide)
  have h1 : t.readByte (s.base + 1) = s.readV 1 := hbytes 1 (by decide)
  rw [fetchWord_toNat, hpc', h0, h1]

/-- Settles O36: whichever VF the second assignment reads, it takes it from itself. -/
theorem subtractVfFromItself : Obligations.SubtractVfFromItself := by
  have hzero (p : Byte) : subByte p p = 0 := BitVec.eq_of_toNat_eq (by rw [subByte_toNat]; simp)
  intro s
  refine ⟨⟨_, rfl, ?_⟩, ⟨_, rfl, ?_⟩⟩ <;>
    rw [State.readV_setPc, State.readV_flagThenResult, if_pos rfl, hzero]

/-! Two draws. -/

theorem Display.ext_cell {d d' : Display} (h : ∀ r c, r < 32 → c < 64 → d.cell r c = d'.cell r c) : d = d' := by
  refine Vector.ext fun r hr => BitVec.eq_of_getLsbD_eq fun c hc => ?_
  have hcell := h r c hr hc
  simpa only [Display.cell, Config.displayH, hr, dif_pos] using hcell

/-- The sprite bit depends on the sprite's bytes only. -/
theorem spriteBit_congr {s t : State} (hbytes : ∀ a, t.readByte a = s.readByte a) (hi : t.i = s.i)
    (x0 y0 n r c : Nat) : spriteBit t x0 y0 n r c = spriteBit s x0 y0 n r c := by
  simp only [spriteBit, hbytes, State.base, hi]

/-- Bit j of byte k of the sprite is on the cell that many rows down and columns right, wrapped (R118, R119). -/
theorem spriteBit_at {s : State} {n k j : Nat} (x0 y0 : Nat) (hn : n ≤ 32) (hk : k < n) (hj : j < 8) :
    spriteBit s x0 y0 n ((y0 + k) % 32) ((x0 + (7 - j)) % 64) = (s.readByte (s.base + k)).getLsbD j := by
  have hrow : ((y0 + k) % 32 + 32 - y0 % 32) % 32 = k := by omega
  have hcol : ((x0 + (7 - j)) % 64 + 64 - x0 % 64) % 64 = 7 - j := by omega
  have hbit : 7 - (7 - j) = j := by omega
  have hwidth : 7 - j < 8 := by omega
  simp [spriteBit, hrow, hcol, hbit, hwidth, hk]

/-- Settles O52: the second draw XORs every cell with the same sprite bit; a 1 bit meets a cell that is on in the
first draw or in the second. -/
theorem drawTwiceRestores : Obligations.DrawTwiceRestores := by
  intro x y n s t hn hrange hx hy h
  have hn32 : n ≤ 32 := by omega
  obtain ⟨-, hdraws, -⟩ := drawXorsSprite x y n s hn
  obtain ⟨t', ht', hcell, hhit, -, -, hframe⟩ := hdraws hrange
  cases h.symm.trans ht'
  have hbase : t.base = s.base := congrArg BitVec.toNat (hframe.index rfl)
  have hVx : t.readV x = s.readV x := hframe.regs x (by simpa using hx)
  have hVy : t.readV y = s.readV y := hframe.regs y (by simpa using hy)
  have hbit := spriteBit_congr (hframe.memory rfl) (hframe.index rfl) (s.readV x).toNat (s.readV y).toNat n
  obtain ⟨-, hdraws', -⟩ := drawXorsSprite x y n t hn
  obtain ⟨u, hu, hcell', hhit', hmiss', -⟩ := hdraws' (hbase ▸ hrange)
  rw [hVx, hVy] at hcell' hhit' hmiss'
  refine ⟨u, hu, Display.ext_cell fun r c hr hc => ?restored, fun ⟨k, j, hk, hj, hset⟩ => ?flag⟩
  case restored =>
    rw [hcell' r c hr hc, hcell r c hr hc, hbit, Bool.bne_assoc, bne_self_eq_false, Bool.bne_false]
  case flag =>
    have hon := (spriteBit_at (s.readV x).toNat (s.readV y).toNat hn32 hk hj).trans hset
    have hr : ((s.readV y).toNat + k) % 32 < 32 := Nat.mod_lt _ (by decide)
    have hc : ((s.readV x).toNat + (7 - j)) % 64 < 64 := Nat.mod_lt _ (by decide)
    by_cases hcollides : Collides t (s.readV x).toNat (s.readV y).toNat n
    · exact hhit' hcollides
    · rw [hmiss' hcollides]
      refine hhit ⟨_, _, hr, hc, hon, ?_⟩
      by_contra hoff
      refine hcollides ⟨_, _, hr, hc, (hbit _ _).trans hon, ?_⟩
      rw [hcell _ _ hr hc, Bool.not_eq_true _ |>.mp hoff, hon]; rfl

end Sys2Proof.Machine
end

section
/-!
Fetching what stands in memory: a word placed at pc (spec/20_memory.md R49), and the zeros of a memory without a
program (spec/70_reset_and_hazards.md R149).
-/

namespace Sys2Proof.Machine

/-! A placed word. -/

/-- Where `placeWord` stores: at pc, or at 0x200 where no fetch can use pc. -/
def placeAddr (s : State) : Word :=
  if s.pc.toNat + 1 < Config.memSize then s.pc else BitVec.ofNat 16 Config.progBase

theorem placeAddr_lt (s : State) : (placeAddr s).toNat + 1 < 4096 := by
  unfold placeAddr
  split
  · assumption
  · decide

theorem placeAddr_of_lt {s : State} (h : s.pc.toNat + 1 < 4096) : placeAddr s = s.pc := if_pos h

theorem placeWord_eq (s : State) (w : Word) :
    placeWord s w = ({ s with fault := none, pc := placeAddr s } : State).pokeBytes (placeAddr s).toNat
      [highByte w, lowByte w] := rfl

@[simp] theorem placeWord_pc (s : State) (w : Word) : (placeWord s w).pc = placeAddr s := by
  rw [placeWord_eq, State.pokeBytes_pc]

theorem fetches_placeWord (s : State) (w : Word) : Fetches (placeWord s w) := by
  refine ⟨?_, by rw [placeWord_pc]; exact placeAddr_lt s⟩
  rw [placeWord_eq, State.pokeBytes_fault]

theorem fetchWord_placeWord (s : State) (w : Word) : fetchWord (placeWord s w) = w := by
  have hhigh : (placeWord s w).readByte ((placeAddr s).toNat + 0) = highByte w :=
    State.readByte_pokeBytes_image (bs := [highByte w, lowByte w]) (k := 0) Nat.zero_lt_two
  have hlow : (placeWord s w).readByte ((placeAddr s).toNat + 1) = lowByte w :=
    State.readByte_pokeBytes_image (bs := [highByte w, lowByte w]) (k := 1) Nat.one_lt_two
  rw [Nat.add_zero] at hhigh
  rw [fetchWord, placeWord_pc, hhigh, hlow, wordOfBytes_highByte_lowByte]

theorem placeWord_of_fetches {s : State} (hs : Fetches s) (w : Word) :
    placeWord s w = { s with mem := (placeWord s w).mem } := by
  obtain ⟨hrunning, hpc⟩ := hs
  have hsame : ({ s with fault := none, pc := placeAddr s } : State) = s := by
    rw [placeAddr_of_lt hpc, ← hrunning]
  rw [placeWord_eq, hsame]
  exact State.pokeBytes_eq_setMem ..

theorem withFetchWord_eq_placeWord (s : State) {w : Nat} (hw : w < 2 ^ 16) :
    s.withFetchWord 16 w = placeWord s (BitVec.ofNat 16 w) := by
  rw [State.withFetchWord, Nat.mod_eq_of_lt hw]

theorem decodeTableWord_eq_decodeWord {w : Nat} (hw : w < 2 ^ 16) :
    decodeTableWord 16 w = decodeWord (BitVec.ofNat 16 w) := by
  rw [decodeTableWord, Nat.mod_eq_of_lt hw, decode, wordOfBytes_highByte_lowByte]
  cases decodeWord (BitVec.ofNat 16 w) <;> rfl

/-- Settles O60: for a word of 16 bits `withFetchWord` is `placeWord` of it. -/
theorem placedWordIsFetched : Obligations.PlacedWordIsFetched := by
  intro s w hw
  rw [withFetchWord_eq_placeWord s hw]
  exact ⟨fetches_placeWord s _, fetchWord_placeWord s _, decodeTableWord_eq_decodeWord hw,
    fun hrunning hpc => placeWord_of_fetches ⟨hrunning, hpc⟩ _⟩

/-! Stepping without a program. -/

section NoProgram
variable (p : Config.Params) (ds : List Byte)

/-- The reset state with pc moved to `a`. -/
def resetAt (a : Word) : State := { State.resetWith p ds with pc := a }

theorem readByte_resetAt {a : Word} {n : Nat} (h : 0x200 ≤ n) : (resetAt p ds a).readByte n = 0 :=
  (State.readByte_resetWith p ds n).trans (Memory.unlisted_of_le p.font (by simp only [Config.fontSize]; omega))

theorem fetchWord_resetAt {a : Word} (h : 0x200 ≤ a.toNat) : fetchWord (resetAt p ds a) = 0 := by
  have hhigh : (resetAt p ds a).readByte a.toNat = 0 := readByte_resetAt p ds h
  have hlow : (resetAt p ds a).readByte (a.toNat + 1) = 0 := readByte_resetAt p ds (by omega)
  change wordOfBytes ((resetAt p ds a).readByte a.toNat) ((resetAt p ds a).readByte (a.toNat + 1)) = 0
  rw [hhigh, hlow]; rfl

/-- The word 0x0000 is undefined, and ticking the timers at 0 leaves them (R79, R81). -/
theorem step_resetAt {a : Word} (hlow : 0x200 ≤ a.toNat) (hhigh : a.toNat + 1 < 4096) :
    step (resetAt p ds a) = .next (resetAt p ds (a + 2)) := by
  have hword := fetchWord_resetAt p ds hlow
  have hundefined : decodeWord (fetchWord (resetAt p ds a)) = none := by rw [hword]; decide
  rw [step_of_undefined ⟨rfl, hhigh⟩ hundefined, hword]
  rfl

theorem step_resetAt_end :
    step (resetAt p ds 0x1000#16) =
      .next { resetAt p ds 0x1000#16 with fault := some (.addressOutOfRange 0x1000) } :=
  step_of_fetch_out_of_range rfl (show 4096 ≤ (0x1000#16).toNat + 1 by decide)

theorem core_run_succ {M : Host.Core} {n : Nat} {s t : M.State} (h : M.step s = .next t) :
    M.run (n + 1) s = M.run n t := by
  rw [Host.Core.run, h]

/-- From 2n bytes below 0x1000, n steps reach it. -/
theorem run_resetAt {n : Nat} (hn : n ≤ 1792) :
    Host.Core.run Sys2Proof.core n (resetAt p ds (BitVec.ofNat 16 (4096 - 2 * n))) =
      .next (resetAt p ds 0x1000#16) := by
  induction n with
  | zero => rfl
  | succ n ih =>
    have hpc : (BitVec.ofNat 16 (4096 - 2 * (n + 1))).toNat = 4096 - 2 * (n + 1) :=
      Nat.mod_eq_of_lt (by omega)
    have hnext : BitVec.ofNat 16 (4096 - 2 * (n + 1)) + 2 = BitVec.ofNat 16 (4096 - 2 * n) := by
      bv_omega
    have hstep : Sys2Proof.core.step (resetAt p ds (BitVec.ofNat 16 (4096 - 2 * (n + 1)))) =
        .next (resetAt p ds (BitVec.ofNat 16 (4096 - 2 * n))) :=
      hnext ▸ step_resetAt p ds (by omega) (by omega)
    exact (core_run_succ hstep).trans (ih (by omega))

end NoProgram

/-- Settles O59: 0x200 is 2 * 1792 bytes below 0x1000. -/
theorem steppingWithoutProgram : Obligations.SteppingWithoutProgram := by
  intro p ds
  have hstart : resetAt p ds (BitVec.ofNat 16 (4096 - 2 * 1792)) = State.resetWith p ds := rfl
  exact ⟨hstart ▸ run_resetAt p ds (Nat.le_refl 1792), step_resetAt_end p ds⟩

end Sys2Proof.Machine
end
